-- ==== Sys2Proof/Word.lean ====
section
/-! DEFINITION. The words of the block: bytes, host request words, line levels (spec 00_scope.md R12, R13). -/

namespace Sys2Proof

/-- A byte; bit 7 is its most significant bit (R13). -/
abbrev Byte := BitVec 8

/-- A host request word (R70); a value, not a byte sequence (R59). -/
abbrev Word := BitVec 32

/-- The level of a line: `low` is 0, `high` is 1 (R12, R16). -/
inductive Level where
  | low
  | high
  deriving DecidableEq, Repr, Inhabited

end Sys2Proof
end

