-- ==== Sys2Proof/Syntax.lean ====
section
/-! DEFINITION. The instructions of the block: eleven host operations (level H, 30_encoding.md R72) and fourteen
bus commands (level B, R80), one constructor per row of spec/opcode_table.json. -/

namespace Sys2Proof

/-- The adapter's two-valued colour (R8). -/
inductive Color where
  | off
  | on
  deriving DecidableEq, Repr, Inhabited

/-- The fourteen panel registers the block writes (R9, R31, R80), in the order of R9. -/
inductive Reg where
  | psr | pwr | pon | btst | pfs | tse | tcon | cdi | pll | pof | ptou | dtm2 | dsp | drf
  deriving DecidableEq, Repr, Inhabited

/-- All fourteen, in the order of R9. -/
def Reg.all : List Reg :=
  [.psr, .pwr, .pon, .btst, .pfs, .tse, .tcon, .cdi, .pll, .pof, .ptou, .dtm2, .dsp, .drf]

/-- The place of a register in the order of R9. -/
def Reg.index : Reg → Nat
  | .psr => 0 | .pwr => 1 | .pon => 2 | .btst => 3 | .pfs => 4 | .tse => 5 | .tcon => 6
  | .cdi => 7 | .pll => 8 | .pof => 9 | .ptou => 10 | .dtm2 => 11 | .dsp => 12 | .drf => 13

/-- An instruction. Coordinates are integers after decoding (R14, R74); a payload or frame is a byte string, index 0
first (R13). -/
inductive Instr where
  /-- FB.WRITE `x, y, b` (R100). -/
  | fbWrite (x y : Int) (b : Bool)
  /-- FB.CLEAR (R101). -/
  | fbClear
  /-- FB.QUERY `x, y` (R102). -/
  | fbQuery (x y : Int)
  /-- DA.PIXEL `x, y, c` (R110). -/
  | daPixel (x y : Int) (col : Color)
  /-- DA.PUSH (R111). -/
  | daPush
  /-- DA.CLEARBUF (R112). -/
  | daClearbuf
  /-- CT.RESET (R126). -/
  | ctReset
  /-- CT.INIT (R127). -/
  | ctInit
  /-- CT.SENDFRAME `F` (R128). -/
  | ctSendframe (frame : List Byte)
  /-- CT.CMD `reg, p` (R129). -/
  | ctCmd (reg : Byte) (payload : List Byte)
  /-- CT.OFF (R130). -/
  | ctOff
  /-- PSR, panel setting, one payload byte (R141). -/
  | psr (p : Byte)
  /-- PWR, power configuration, five payload bytes (R142). -/
  | pwr (p0 p1 p2 p3 p4 : Byte)
  /-- PON, power-on command (R143). -/
  | pon
  /-- BTST, booster timing, three payload bytes (R144). -/
  | btst (p0 p1 p2 : Byte)
  /-- PFS, frame-rate select, one payload byte (R145). -/
  | pfs (p : Byte)
  /-- TSE, temperature-sensor mode, one payload byte (R146). -/
  | tse (p : Byte)
  /-- TCON, panel-timing-control, one payload byte (R147). -/
  | tcon (p : Byte)
  /-- CDI, VCOM-and-data-interval, one payload byte (R148). -/
  | cdi (p : Byte)
  /-- PLL, PLL frequency select, one payload byte (R149). -/
  | pll (p : Byte)
  /-- POF, power-off command (R150). -/
  | pof
  /-- PTOU, disable partial-refresh mode (R151). -/
  | ptou
  /-- DTM2, frame data, `FB_BYTES` payload bytes (R153). -/
  | dtm2 (frame : List Byte)
  /-- DSP, data-stop (R154). -/
  | dsp
  /-- DRF, display-refresh-start (R155). -/
  | drf
  deriving DecidableEq, Repr, Inhabited

/-- The register and payload of a bus command; none for a host operation (R80). -/
def Instr.busParts : Instr → Option (Reg × List Byte)
  | .fbWrite _ _ _ => none
  | .fbClear => none
  | .fbQuery _ _ => none
  | .daPixel _ _ _ => none
  | .daPush => none
  | .daClearbuf => none
  | .ctReset => none
  | .ctInit => none
  | .ctSendframe _ => none
  | .ctCmd _ _ => none
  | .ctOff => none
  | .psr p => some (.psr, [p])
  | .pwr p0 p1 p2 p3 p4 => some (.pwr, [p0, p1, p2, p3, p4])
  | .pon => some (.pon, [])
  | .btst p0 p1 p2 => some (.btst, [p0, p1, p2])
  | .pfs p => some (.pfs, [p])
  | .tse p => some (.tse, [p])
  | .tcon p => some (.tcon, [p])
  | .cdi p => some (.cdi, [p])
  | .pll p => some (.pll, [p])
  | .pof => some (.pof, [])
  | .ptou => some (.ptou, [])
  | .dtm2 frame => some (.dtm2, frame)
  | .dsp => some (.dsp, [])
  | .drf => some (.drf, [])

/-- Level H or level B (R3). -/
def Instr.isHostOp (i : Instr) : Bool := i.busParts.isNone

end Sys2Proof
end

