-- ==== Sys2Proof/Config.lean ====
section
/-! DEFINITION. The parameters of the block (spec 00_scope.md R6 to R12, 10_state.md R32) as one record, and the free values
the spec leaves open. -/

namespace Sys2Proof

/-- What the environment settles at one step: the panel's busy line and its answer to a transmit (R19), the timeout
timer (R163), and the two draws the block makes (R102, R131). -/
structure Move where
  /-- The busy line at this step; true is asserted (R12, R26). -/
  busy : Bool
  /-- The panel's answer to a `TX` tried at this step; true is `busfault` (R124, R162). -/
  txFault : Bool
  /-- Whether the timeout, where one is set, fires at this step (R163). -/
  timeout : Bool
  /-- The draw `avail` of an FB.QUERY made at this step (R102). -/
  avail : Bool
  /-- By how many nanoseconds a delay made at this step exceeds its lower bound (R131). -/
  overrun : Nat
  deriving DecidableEq, Repr, Inhabited

/-- The sub-fields of the six ConfigFlags bit-sets, under the names the rules give them (R33 to R38). -/
inductive FlagName where
  /-- PSR: panel resolution (R33). -/
  | panelResolution
  /-- PSR: LUT source (R33). -/
  | lutSource
  /-- PSR: colour format (R33). -/
  | colorFormat
  /-- PSR: scan direction (R33). -/
  | scanDirection
  /-- PSR: booster enable (R33). -/
  | boosterEnable
  /-- PSR: reset mode (R33). -/
  | resetMode
  /-- PWR byte 0: internal regulator selection (R34). -/
  | regulatorSelection
  /-- Each byte of BTST: booster timing, the duration (R35). -/
  | boosterTiming
  /-- Each byte of BTST: booster strength (R35). -/
  | boosterStrength
  /-- PFS: frame-rate (R36). -/
  | frameRate
  /-- TSE: temperature-sensor mode (R37). -/
  | temperatureSensorMode
  /-- PLL: PLL frequency (R38). -/
  | pllFrequency
  deriving DecidableEq, Repr, Inhabited

/-- One sub-field of a ConfigFlags byte: its mask and its documented values (R32). -/
structure SubField where
  mask : Byte
  values : List Byte
  deriving DecidableEq, Repr, Inhabited

/-- A sub-field of a ConfigFlags byte with one of its documented values singled out, the one the payload has (R32, R84). -/
structure FlagField where
  mask : Byte
  before : List Byte
  chosen : Byte
  after : List Byte
  deriving DecidableEq, Repr, Inhabited

/-- The parameters of the block (R6 to R12, R32). -/
structure Config where
  /-- Pixel columns (R6). -/
  width : Nat
  /-- Pixel rows (R6). -/
  height : Nat
  /-- Byte index from column and row-group (R7). -/
  idx : Nat → Nat → Nat
  /-- The stored bit of a colour (R8). -/
  bitOf : Color → Bool
  /-- The bit the panel renders as black (R8). -/
  blackBit : Bool
  /-- The opcode bytes `A_*` (R9). -/
  addr : Reg → Byte
  /-- The payloads `P_*` CT.INIT sends (R10); no meaning for a register CT.INIT sends no payload to. -/
  payload : Reg → List Byte
  /-- The table `FLAGS`: the mask and the documented values of each sub-field (R32). -/
  flags : FlagName → SubField
  /-- The predicate `valid_payload(reg, P)` of a ConfigFlags byte `P` of a register (R32, D20). -/
  validPayload : Reg → Byte → Bool
  /-- The geometry a value of the panel-resolution sub-field names (R193). -/
  resolution : Byte → Nat × Nat
  /-- `T_RST_LOW` in nanoseconds (R11). -/
  rstLow : Nat
  /-- `T_RST_SETTLE` in nanoseconds (R11). -/
  rstSettle : Nat
  /-- `BUSY_TIMEOUT` in nanoseconds (R11, R163). -/
  busyTimeout : Option Nat
  /-- `BUSY_ASSERTED_LEVEL`, the electrical level of an asserted busy line (R12). -/
  busyAssertedLevel : Level

/-! Free values: nothing constrains them (log 2, 3, 6, 7, 8, 17). -/

/-- The environment's move at a step where State lists none (R19; log 2). -/
opaque Config.freeMove : Nat → Move

/-- The content of each framebuffer byte at creation (R43; log 3). -/
opaque Config.fbAtCreation : Nat → Byte

/-- A free permutation of the bytes: applied to fourteen distinct indices it gives fourteen free, pairwise distinct
opcode bytes, which is all R9 says of them (log 6). -/
opaque Config.addrPerm : Equiv.Perm Byte

/-- Byte `j` of a payload, where it is no ConfigFlags byte (R10; log 7). -/
opaque Config.payloadByte : Reg → Nat → Byte

/-- The table `FLAGS` with the values of CT.INIT, before the sub-fields of a register are made disjoint (R32; log 7). -/
opaque Config.freeFields : FlagName → FlagField

/-- Which documented combinations are valid, beside those CT.INIT sends (R32; log 7). -/
opaque Config.freeValidPayload : Reg → Byte → Bool

/-- The geometry a value of the panel-resolution sub-field names, where it is not CT.INIT's (R193; log 7). -/
opaque Config.freeResolution : Byte → Nat × Nat

/-- By how much `T_RST_LOW` exceeds ten milliseconds (R11; log 8). -/
opaque Config.rstLowExtra : Nat

/-- By how much `T_RST_SETTLE` exceeds ten milliseconds (R11; log 8). -/
opaque Config.rstSettleExtra : Nat

/-- `BUSY_ASSERTED_LEVEL` (R12; log 17). -/
opaque Config.freeBusyLevel : Level

end Sys2Proof
end

