-- ==== Sys2Proof/Machine/Parameters.lean ====
section
/-! DEFINITION. The constants derived from the parameters (00_scope.md R6, R11, 30_encoding.md R80), what the parameters must
satisfy (70_reset_and_hazards.md R193), and the configuration of this machine. -/

namespace Sys2Proof

/-- `ROWGROUPS = HEIGHT / 8` (R6). -/
def Config.rowGroups (c : Config) : Nat := c.height / 8

/-- `FB_BYTES = WIDTH * HEIGHT / 8` (R6). -/
def Config.fbBytes (c : Config) : Nat := c.width * c.height / 8

/-- The payload length of a register as the table of R80 gives it. -/
def Config.payloadLength (c : Config) : Reg → Nat
  | .psr => 1 | .pwr => 5 | .pon => 0 | .btst => 3 | .pfs => 1 | .tse => 1 | .tcon => 1
  | .cdi => 1 | .pll => 1 | .pof => 0 | .ptou => 0 | .dtm2 => c.fbBytes | .dsp => 0 | .drf => 0

/-- The registers whose payload is a constant of the configuration (R10). -/
def Config.initRegs : List Reg := [.psr, .pwr, .btst, .pfs, .tse, .tcon, .cdi, .pll]

/-- The logical busy value of an electrical level (R12). -/
def Config.busyOfLevel (c : Config) (l : Level) : Bool := l == c.busyAssertedLevel

/-- Ten milliseconds, the lower bound of both reset delays (R11). -/
def Config.tenMs : Nat := 10000000

/-- What the parameters must satisfy (R193: the constraints of R6, R7, R8, R9, R10, R11). -/
structure Config.Valid (c : Config) : Prop where
  width_pos : 1 ≤ c.width
  width_max : c.width ≤ 2047
  height_min : 8 ≤ c.height
  height_max : c.height ≤ 2040
  height_rows : c.height % 8 = 0
  idx_range : ∀ x g, x < c.width → g < c.rowGroups → c.idx x g < c.fbBytes
  idx_inj : ∀ x g x' g', x < c.width → g < c.rowGroups → x' < c.width → g' < c.rowGroups →
    c.idx x g = c.idx x' g' → x = x' ∧ g = g'
  idx_surj : ∀ i, i < c.fbBytes → ∃ x g, x < c.width ∧ g < c.rowGroups ∧ c.idx x g = i
  bit_off : c.bitOf .off = c.blackBit
  bit_on : c.bitOf .on ≠ c.bitOf .off
  addr_inj : ∀ r r', c.addr r = c.addr r' → r = r'
  payload_length : ∀ r ∈ Config.initRegs, (c.payload r).length = c.payloadLength r
  booster_equal : ∃ b, c.payload .btst = [b, b, b]
  rst_low : Config.tenMs ≤ c.rstLow
  rst_settle : Config.tenMs ≤ c.rstSettle

/-- The bits of a byte that some sub-field covers (R32). -/
def Config.usedBits (fields : List SubField) : Byte :=
  (fields.map SubField.mask).foldr (· ||| ·) 0#8

/-- `P = v1 | v2 | ... | vn`, one documented value per sub-field (R32, R84). -/
inductive Config.Composed : List SubField → Byte → Prop where
  | nil : Config.Composed [] 0#8
  | cons {f : SubField} {fs : List SubField} {v p : Byte} :
      v ∈ f.values → v &&& ~~~f.mask = 0#8 → Config.Composed fs p → Config.Composed (f :: fs) (v ||| p)

/-- The combinations of one value of each sub-field (R32, R84). -/
def Config.combinations : List SubField → List Byte
  | [] => [0#8]
  | f :: fs => f.values.flatMap fun v => (Config.combinations fs).map (v ||| ·)

/-- The register of a sub-field (R33 to R38). -/
def FlagName.reg : FlagName → Reg
  | .panelResolution | .lutSource | .colorFormat | .scanDirection | .boosterEnable | .resetMode => .psr
  | .regulatorSelection => .pwr
  | .boosterTiming | .boosterStrength => .btst
  | .frameRate => .pfs
  | .temperatureSensorMode => .tse
  | .pllFrequency => .pll

/-- The sub-fields of a ConfigFlags byte of a register, in the order of R33 to R38; a register without a ConfigFlags byte has
none (R39). -/
def FlagName.ofReg : Reg → List FlagName
  | .psr => [.panelResolution, .lutSource, .colorFormat, .scanDirection, .boosterEnable, .resetMode]
  | .pwr => [.regulatorSelection]
  | .btst => [.boosterTiming, .boosterStrength]
  | .pfs => [.frameRate]
  | .tse => [.temperatureSensorMode]
  | .pll => [.pllFrequency]
  | .tcon | .cdi | .pon | .pof | .ptou | .dtm2 | .dsp | .drf => []

/-- The rows of `FLAGS` for a ConfigFlags byte of a register (R32). -/
def Config.flagsOf (c : Config) (r : Reg) : List SubField := (FlagName.ofReg r).map c.flags

/-- What a ConfigFlags byte has in a sub-field (R32). -/
def Config.fieldOf (c : Config) (n : FlagName) (b : Byte) : Byte := b &&& (c.flags n).mask

/-- The payload bytes that are ConfigFlags bytes: the six bit-sets of R32 (R33 to R38). -/
def Config.flagBytes : List (Reg × Nat) :=
  [(.psr, 0), (.pwr, 0), (.btst, 0), (.btst, 1), (.btst, 2), (.pfs, 0), (.tse, 0), (.pll, 0)]

/-- What R32 and R193 ask of the ConfigFlags parameters: the sub-fields of a byte are disjoint, a valid byte is a documented
combination, every ConfigFlags byte of CT.INIT's payloads is valid, and the resolution sub-field of `P_PSR` names the geometry
(R202). The configuration meets this (`Config.b2040_flagsValid`); the block checks none of it at run time. -/
structure Config.FlagsValid (c : Config) : Prop where
  disjoint : ∀ r, (c.flagsOf r).Pairwise fun f g => f.mask &&& g.mask = 0#8
  documented : ∀ rj ∈ Config.flagBytes, ∀ b, c.validPayload rj.1 b = true → Config.Composed (c.flagsOf rj.1) b
  valid : ∀ rj ∈ Config.flagBytes, ∀ b, (c.payload rj.1)[rj.2]? = some b → c.validPayload rj.1 b = true
  resolution : ∀ b, (c.payload .psr)[0]? = some b →
    c.resolution (c.fieldOf .panelResolution b) = (c.width, c.height)

/-- The default layout `idx(x, g) = x * ROWGROUPS + g` (R7, D2). -/
def Config.columnMajor (rowGroups : Nat) (x g : Nat) : Nat := x * rowGroups + g

/-- The default polarity `bit_of(Off) = 0`, `bit_of(On) = 1` (R8, D4). -/
def Config.defaultBitOf : Color → Bool
  | .off => false
  | .on => true

/-- The sub-field with its mask and values cut to the bits of `m`. -/
def FlagField.restrict (m : Byte) (f : FlagField) : FlagField where
  mask := f.mask &&& m
  before := f.before.map (· &&& (f.mask &&& m))
  chosen := f.chosen &&& (f.mask &&& m)
  after := f.after.map (· &&& (f.mask &&& m))

/-- The row of the table `FLAGS` (R32). -/
def FlagField.toSubField (f : FlagField) : SubField := ⟨f.mask, f.before ++ f.chosen :: f.after⟩

/-- The bits that the sub-fields before this one in its byte may have. -/
def Config.bitsBefore (n : FlagName) : Byte :=
  (((FlagName.ofReg n.reg).takeWhile (· != n)).map fun m => (Config.freeFields m).mask).foldr (· ||| ·) 0#8

/-- A sub-field of this machine: free but for being disjoint from those before it in its byte and having its values inside its
mask. Sub-fields that are so already stay as they are (R32; log 7). -/
def Config.flagField (n : FlagName) : FlagField := (Config.freeFields n).restrict (~~~Config.bitsBefore n)

/-- The table `FLAGS` of this machine (R32; log 7). -/
def Config.freeFlags (n : FlagName) : SubField := (Config.flagField n).toSubField

/-- The ConfigFlags byte of a register in this machine: `P = v1 | v2 | ... | vn` for the chosen values (R32, R84; log 7). -/
def Config.flagByte (r : Reg) : Byte :=
  ((FlagName.ofReg r).map fun n => (Config.flagField n).chosen).foldr (· ||| ·) 0#8

/-- The payloads of CT.INIT in this machine, of the lengths of R10: the ConfigFlags bytes of R33 to R38 composed as R32 says,
the others free (log 7). -/
def Config.initPayload : Reg → List Byte
  | .psr => [Config.flagByte .psr]
  | .pwr => [Config.flagByte .pwr, Config.payloadByte .pwr 1, Config.payloadByte .pwr 2,
      Config.payloadByte .pwr 3, Config.payloadByte .pwr 4]
  | .btst => [Config.flagByte .btst, Config.flagByte .btst, Config.flagByte .btst]
  | .pfs => [Config.flagByte .pfs]
  | .tse => [Config.flagByte .tse]
  | .tcon => [Config.payloadByte .tcon 0]
  | .cdi => [Config.payloadByte .cdi 0]
  | .pll => [Config.flagByte .pll]
  | .pon => [] | .pof => [] | .ptou => [] | .dtm2 => [] | .dsp => [] | .drf => []

/-- The configuration of this machine: the spec's defaults where it has one (geometry, layout, polarity: R6, R7, R8, DESIGN
CHOICE, log 5; no `BUSY_TIMEOUT`: R11, D23, log 9), values free within R9, R11, R32 and R193 for the rest. -/
def Config.b2040 : Config where
  width := 128
  height := 296
  idx := Config.columnMajor 37
  bitOf := Config.defaultBitOf
  blackBit := false
  addr := fun r => Config.addrPerm (BitVec.ofNat 8 r.index)
  payload := Config.initPayload
  flags := Config.freeFlags
  validPayload := fun r b => (Config.combinations ((FlagName.ofReg r).map Config.freeFlags)).contains b &&
    (b == Config.flagByte r || Config.freeValidPayload r b)
  resolution := fun v =>
    if v = Config.flagByte .psr &&& (Config.freeFlags .panelResolution).mask then (128, 296) else Config.freeResolution v
  rstLow := Config.tenMs + Config.rstLowExtra
  rstSettle := Config.tenMs + Config.rstSettleExtra
  busyTimeout := none
  busyAssertedLevel := Config.freeBusyLevel

end Sys2Proof
end

