-- ==== Sys2Proof/WellFormed.lean ====
section
/-! DEFINITION. Which instructions the encodings can express (30_encoding.md R70 to R75, R80, R82; 10_state.md R35). -/

namespace Sys2Proof

/-- A coordinate the signed 12-bit field holds (R74). -/
def coordOk (v : Int) : Bool := decide (-2048 ≤ v ∧ v ≤ 2047)

/-- The instruction is one the encodings can express: coordinates in the signed 12-bit range (R74), a frame of `FB_BYTES`
bytes (R75), a payload length that fits 16 bits (R74), three identical booster bytes (R35). -/
def Instr.wellFormed (c : Config) : Instr → Bool
  | .fbWrite x y _ => coordOk x && coordOk y
  | .fbClear => true
  | .fbQuery x y => coordOk x && coordOk y
  | .daPixel x y _ => coordOk x && coordOk y
  | .daPush => true
  | .daClearbuf => true
  | .ctReset => true
  | .ctInit => true
  | .ctSendframe frame => frame.length == c.fbBytes
  | .ctCmd _ payload => decide (payload.length < 65536)
  | .ctOff => true
  | .psr _ => true
  | .pwr _ _ _ _ _ => true
  | .pon => true
  | .btst p0 p1 p2 => p0 == p1 && p1 == p2
  | .pfs _ => true
  | .tse _ => true
  | .tcon _ => true
  | .cdi _ => true
  | .pll _ => true
  | .pof => true
  | .ptou => true
  | .dtm2 frame => frame.length == c.fbBytes
  | .dsp => true
  | .drf => true

end Sys2Proof
end

