-- ==== Sys2Proof/Decode.lean ====
section
/-! DEFINITION. Decoding of host requests (30_encoding.md R70 to R76) and of bus commands (R80 to R82), and the encoder.
Each format's reserved bits are checked as R70 lays them out. -/

namespace Sys2Proof

/-- Why a request or a transaction is no instruction. -/
inductive DecodeError where
  /-- `hop` names no operation (R76). -/
  | noSuchOperation
  /-- A reserved bit of the format is set (R70, R76). -/
  | reservedBitSet
  /-- More stream bytes than the request has: no such request can be expressed (R75). -/
  | streamTooLong
  /-- An opcode byte that is none of the fourteen (R83). -/
  | unknownOpcode
  /-- A payload whose length is not the register's (R82). -/
  | payloadLength
  /-- Three booster bytes that are not identical (R35). -/
  | boosterBytesDiffer
  deriving DecidableEq, Repr

/-- What a decoder answers. -/
inductive Decoded where
  /-- An instruction. -/
  | instr (i : Instr)
  /-- A request whose stream has not arrived in full (R75). -/
  | incomplete
  /-- No instruction. -/
  | rejected (e : DecodeError)
  deriving DecidableEq, Repr

/-- The encoded form of an instruction: a request word with its byte stream (level H), or what the panel receives of a
transaction, the opcode byte and the payload (level B). -/
inductive Encoded where
  | request (word : Word) (stream : List Byte)
  | transaction (opcode : Byte) (payload : List Byte)
  deriving DecidableEq, Repr

/-! ## The fields of a request word -/

/-- `w[31:28]` (R70). -/
def hopField (w : Word) : BitVec 4 := w.extractLsb' 28 4

/-- `sext_12(w[23:12])` (R74). -/
def xField (w : Word) : Int := (w.extractLsb' 12 12).toInt

/-- `sext_12(w[11:0])` (R74). -/
def yField (w : Word) : Int := (w.extractLsb' 0 12).toInt

/-- `w[24]` (R70). -/
def vField (w : Word) : Bool := w.getLsbD 24

/-- `w[23:16]` (R70). -/
def regField (w : Word) : Byte := w.extractLsb' 16 8

/-- `zext_16(w[15:0])` (R74). -/
def lengthField (w : Word) : Nat := (w.extractLsb' 0 16).toNat

/-- The reserved bits of format H0 are 0: `w[27:0]` (R70). -/
def reservedH0 (w : Word) : Bool := w.extractLsb' 0 28 == 0#28

/-- The reserved bits of format HP are 0: `w[27:25]` (R70). -/
def reservedHP (w : Word) : Bool := w.extractLsb' 25 3 == 0#3

/-- The reserved bits of format HC are 0: `w[27:24]` (R70). FB.QUERY has the same ones (R72: `v` must be 0). -/
def reservedHC (w : Word) : Bool := w.extractLsb' 24 4 == 0#4

/-- The colour bit of DA.PIXEL (R74). -/
def colorOfBit : Bool → Color
  | false => .off
  | true => .on

/-- The bit of a colour in a DA.PIXEL word (R74). -/
def bitOfColor : Color → Bool
  | .off => false
  | .on => true

/-! ## Decoding -/

/-- A request of `n` stream bytes: it is there when its last byte has arrived (R75). -/
def withStream (n : Nat) (stream : List Byte) (i : Instr) : Decoded :=
  if stream.length < n then .incomplete
  else if stream.length = n then .instr i
  else .rejected .streamTooLong

/-- A request whose format's reserved bits must be 0. -/
def checkReserved (ok : Bool) (d : Decoded) : Decoded :=
  if ok then d else .rejected .reservedBitSet

/-- The number of stream bytes a request word announces (R75). -/
def streamLength (c : Config) (w : Word) : Nat :=
  match (hopField w).toNat with
  | 0xA => c.fbBytes
  | 0xB => lengthField w
  | _ => 0

/-- Level H: the instruction of a request word and the stream bytes that have arrived (R72 to R76). -/
def decodeRequest (c : Config) (w : Word) (stream : List Byte) : Decoded :=
  match (hopField w).toNat with
  | 0x1 => checkReserved (reservedHP w) (withStream 0 stream (.fbWrite (xField w) (yField w) (vField w)))
  | 0x2 => checkReserved (reservedH0 w) (withStream 0 stream .fbClear)
  | 0x3 => checkReserved (reservedHC w) (withStream 0 stream (.fbQuery (xField w) (yField w)))
  | 0x4 => checkReserved (reservedHP w)
      (withStream 0 stream (.daPixel (xField w) (yField w) (colorOfBit (vField w))))
  | 0x5 => checkReserved (reservedH0 w) (withStream 0 stream .daPush)
  | 0x6 => checkReserved (reservedH0 w) (withStream 0 stream .daClearbuf)
  | 0x8 => checkReserved (reservedH0 w) (withStream 0 stream .ctReset)
  | 0x9 => checkReserved (reservedH0 w) (withStream 0 stream .ctInit)
  | 0xA => checkReserved (reservedH0 w) (withStream c.fbBytes stream (.ctSendframe stream))
  | 0xB => checkReserved (reservedHC w) (withStream (lengthField w) stream (.ctCmd (regField w) stream))
  | 0xC => checkReserved (reservedH0 w) (withStream 0 stream .ctOff)
  | _ => .rejected .noSuchOperation

/-- The register an opcode byte addresses (R9, R80). -/
def regOfOpcode (c : Config) (opcode : Byte) : Option Reg :=
  Reg.all.find? fun r => c.addr r == opcode

/-- A bus command without payload (R39, R82). -/
def payload0 (i : Instr) : List Byte → Decoded
  | [] => .instr i
  | _ :: _ => .rejected .payloadLength

/-- A bus command of one payload byte (R82). -/
def payload1 (i : Byte → Instr) : List Byte → Decoded
  | [p] => .instr (i p)
  | _ => .rejected .payloadLength

/-- BTST: three identical payload bytes (R35, R82). -/
def payloadBtst : List Byte → Decoded
  | [p0, p1, p2] => if p0 == p1 && p1 == p2 then .instr (.btst p0 p1 p2) else .rejected .boosterBytesDiffer
  | _ => .rejected .payloadLength

/-- PWR: five payload bytes (R34, R82). -/
def payloadPwr : List Byte → Decoded
  | [p0, p1, p2, p3, p4] => .instr (.pwr p0 p1 p2 p3 p4)
  | _ => .rejected .payloadLength

/-- DTM2: a frame (R39, R82). -/
def payloadFrame (c : Config) (frame : List Byte) : Decoded :=
  if frame.length = c.fbBytes then .instr (.dtm2 frame) else .rejected .payloadLength

/-- The bus command of a register and a payload (R80, R82). -/
def busInstr (c : Config) (r : Reg) (payload : List Byte) : Decoded :=
  match r with
  | .psr => payload1 .psr payload
  | .pwr => payloadPwr payload
  | .pon => payload0 .pon payload
  | .btst => payloadBtst payload
  | .pfs => payload1 .pfs payload
  | .tse => payload1 .tse payload
  | .tcon => payload1 .tcon payload
  | .cdi => payload1 .cdi payload
  | .pll => payload1 .pll payload
  | .pof => payload0 .pof payload
  | .ptou => payload0 .ptou payload
  | .dtm2 => payloadFrame c payload
  | .dsp => payload0 .dsp payload
  | .drf => payload0 .drf payload

/-- Level B: the bus command of a transaction, from its opcode byte and its payload (R80 to R83). -/
def decodeTransaction (c : Config) (opcode : Byte) (payload : List Byte) : Decoded :=
  match regOfOpcode c opcode with
  | none => .rejected .unknownOpcode
  | some r => busInstr c r payload

/-- Decoding of either level; total. -/
def decode (c : Config) : Encoded → Decoded
  | .request w stream => decodeRequest c w stream
  | .transaction opcode payload => decodeTransaction c opcode payload

/-- The instruction, where there is one. -/
def Decoded.toOption : Decoded → Option Instr
  | .instr i => some i
  | .incomplete => none
  | .rejected _ => none

/-- The stream of zeros that stands for the operand bytes the opcode table gives no bits to. -/
def zeroStream (c : Config) (w : Word) : List Byte := List.replicate (streamLength c w) 0#8

/-- The payload of zeros a bus command has where only its opcode byte is given. -/
def zeroPayload (c : Config) (opcode : Byte) : List Byte :=
  match regOfOpcode c opcode with
  | none => []
  | some r => List.replicate (c.payloadLength r) 0#8

/-- The instruction read from the bits of a table row: 32 bits are a request word, 8 bits the opcode byte of a bus
command; the bytes that follow are zeros. -/
def decodeTableWord (nbits w : Nat) : Option Instr :=
  match nbits with
  | 32 => (decodeRequest Config.b2040 (BitVec.ofNat 32 w) (zeroStream Config.b2040 (BitVec.ofNat 32 w))).toOption
  | 8 => (decodeTransaction Config.b2040 (BitVec.ofNat 8 w) (zeroPayload Config.b2040 (BitVec.ofNat 8 w))).toOption
  | _ => none

/-! ## Encoding (R73, R80, R81) -/

/-- Format H0: `hop` and 28 zeros. -/
def wordH0 (hop : BitVec 4) : Word := hop ++ 0#28

/-- Format HP: `hop`, three zeros, `v`, `x`, `y`. -/
def wordHP (hop : BitVec 4) (v : Bool) (x y : Int) : Word :=
  hop ++ 0#3 ++ BitVec.ofBool v ++ BitVec.ofInt 12 x ++ BitVec.ofInt 12 y

/-- Format HC: `hop`, four zeros, `reg`, `n`. -/
def wordHC (hop : BitVec 4) (reg : Byte) (n : Nat) : Word :=
  hop ++ 0#4 ++ reg ++ BitVec.ofNat 16 n

/-- The encoded form of an instruction. -/
def encode (c : Config) : Instr → Encoded
  | .fbWrite x y b => .request (wordHP 0x1#4 b x y) []
  | .fbClear => .request (wordH0 0x2#4) []
  | .fbQuery x y => .request (wordHP 0x3#4 false x y) []
  | .daPixel x y col => .request (wordHP 0x4#4 (bitOfColor col) x y) []
  | .daPush => .request (wordH0 0x5#4) []
  | .daClearbuf => .request (wordH0 0x6#4) []
  | .ctReset => .request (wordH0 0x8#4) []
  | .ctInit => .request (wordH0 0x9#4) []
  | .ctSendframe frame => .request (wordH0 0xA#4) frame
  | .ctCmd reg payload => .request (wordHC 0xB#4 reg payload.length) payload
  | .ctOff => .request (wordH0 0xC#4) []
  | .psr p => .transaction (c.addr .psr) [p]
  | .pwr p0 p1 p2 p3 p4 => .transaction (c.addr .pwr) [p0, p1, p2, p3, p4]
  | .pon => .transaction (c.addr .pon) []
  | .btst p0 p1 p2 => .transaction (c.addr .btst) [p0, p1, p2]
  | .pfs p => .transaction (c.addr .pfs) [p]
  | .tse p => .transaction (c.addr .tse) [p]
  | .tcon p => .transaction (c.addr .tcon) [p]
  | .cdi p => .transaction (c.addr .cdi) [p]
  | .pll p => .transaction (c.addr .pll) [p]
  | .pof => .transaction (c.addr .pof) []
  | .ptou => .transaction (c.addr .ptou) []
  | .dtm2 frame => .transaction (c.addr .dtm2) frame
  | .dsp => .transaction (c.addr .dsp) []
  | .drf => .transaction (c.addr .drf) []

end Sys2Proof
end

