-- ==== Sys2Proof/Machine/State.lean ====
section
/-! DEFINITION. The state of the block (10_state.md R20), its events and responses (00_scope.md R16, 30_encoding.md R77),
the ways a step can stop, and the state after creation (R43). -/

namespace Sys2Proof.Machine

/-- The controller state `st` (R21, R22). -/
inductive CtrlState where
  | uninitialized
  | resetting
  | initializing
  | idle
  | refreshing
  | poweredOff
  deriving DecidableEq, Repr

/-- The controller operation in progress (R24). -/
inductive OpKind where
  | reset
  | init
  | sendFrame
  | cmd
  deriving DecidableEq, Repr

/-- The operand latch `opnd` (R20, R24). -/
inductive Operand where
  | empty
  | frame (bytes : List Byte)
  | command (reg : Byte) (payload : List Byte)
  deriving DecidableEq, Repr

/-- The two fatal causes (R29, R160). -/
inductive FatalCause where
  | busFault
  | protocolTimeout
  deriving DecidableEq, Repr

/-- The fault record `(code, info)` (R29, R166). -/
structure FaultRecord where
  code : FatalCause
  info : Nat
  deriving DecidableEq, Repr

/-- A response on the host port (R77). -/
inductive Response where
  | ok
  | bit (b : Bool)
  | unknown
  | err (code : FatalCause) (info : Nat)
  deriving DecidableEq, Repr

/-- An output event (R16). -/
inductive Event where
  /-- `CS(l)`. -/
  | cs (l : Level)
  /-- `DC(l)`. -/
  | dc (l : Level)
  /-- `RST(l)`. -/
  | rst (l : Level)
  /-- `TX(b)`. -/
  | tx (b : Byte)
  /-- `DELAY(d)`, `d` in nanoseconds. -/
  | delay (d : Nat)
  /-- `BUSYOK`. -/
  | busyOk
  /-- `DIAG(code, x, y)`. -/
  | diag (code : Nat) (x y : Int)
  /-- `RSP(r)`. -/
  | rsp (r : Response)
  deriving DecidableEq, Repr

/-- A micro-op (R27); `delay` has its lower bound in nanoseconds. -/
inductive MicroOp where
  | cs (l : Level)
  | dc (l : Level)
  | rst (l : Level)
  | tx (b : Byte)
  | delay (tmin : Nat)
  | waitBusy
  deriving DecidableEq, Repr

/-- The framebuffer store: the bytes that an operation has written, by rising index. An index that is not listed has not
been written since creation (R43; log 3). -/
abbrev Memory := List Host.Cell

/-- A request on the host port: the word and the stream bytes that have arrived (R70, R75). -/
structure Request where
  word : Word
  stream : List Byte
  deriving DecidableEq, Repr

/-- Why the machine stops. -/
inductive Fault where
  /-- `step` in a state whose fault record is set, and a bus command there: the block has no step any more (R168). Safe:
  the spec gives the block no behaviour after a fatal fault. -/
  | frozen (r : FaultRecord)
  deriving DecidableEq, Repr

/-- Why a request has no meaning. -/
inductive Refusal where
  /-- `exec`'s arm of an instruction that has no meaning yet. Safe. -/
  | notModelled (mnemonic : String)
  /-- A host operation given to `exec` while `ready` is false: the host has no such move, and a looser port must refuse it
  (R71, U8). Safe. -/
  | notReady
  /-- A controller operation the table of R23 has no row for (R122). Safe. -/
  | outOfSequence
  /-- `step` on a request word that names no operation, or a stream no request has (R75, R76). Safe. -/
  | illegalRequest (e : DecodeError)
  /-- A bus command given to `exec` while no operation is in progress (R123; log 14). Safe. -/
  | noOperation
  /-- `step` in a run that is marked refused (R17, R29). Safe. -/
  | runRefused
  deriving DecidableEq, Repr

/-- The state: the tuple of R20, the two pieces of bookkeeping R20 names, and the model's own inputs. -/
structure State where
  /-- Controller state (R21). -/
  st : CtrlState
  /-- Operation in progress (R24). -/
  op : Option OpKind
  /-- Operand latch (R24). -/
  opnd : Operand
  /-- Micro-program counter (R25). -/
  upc : Nat
  /-- Chip-select output, `low` is asserted (R28). -/
  csN : Level
  /-- Data/command output, `low` is command (R28). -/
  dc : Level
  /-- Reset-line output, `low` holds the panel in reset (R28). -/
  rstN : Level
  /-- Fault record (R29). -/
  fault : Option FaultRecord
  /-- Framebuffer (R30). -/
  fb : Memory
  /-- Output trace, in the order emitted (R16); bookkeeping. -/
  trace : List Event
  /-- The run holds a refused request (R29); bookkeeping. -/
  refused : Bool
  /-- The requests the host has still to make, the next one first; the model's own (log 1). -/
  inbox : List Request
  /-- What the environment does at the coming steps; the model's own (log 2). -/
  moves : List Move
  /-- Steps taken; selects the free move of a step `moves` does not list; the model's own (log 2). -/
  tick : Nat
  deriving DecidableEq, Repr

/-- The state after creation (R43, R190). The last three fields are the model's own (DESIGN CHOICE, log 1, log 2). -/
def State.reset : State where
  st := .uninitialized
  op := none
  opnd := .empty
  upc := 0
  csN := .high
  dc := .low
  rstN := .high
  fault := none
  fb := []
  trace := []
  refused := false
  inbox := []
  moves := []
  tick := 0

end Sys2Proof.Machine
end

