-- ==== Sys2Proof/Machine/Ops.lean ====
section
/-! DEFINITION. The shared operations: the environment's inputs, the trace, the line registers, the framebuffer store, and
taking an exception (60_exceptions.md R161, R166). There is no return from an exception (R168). -/

namespace Sys2Proof.Machine

/-! ## The environment (log 2) -/

/-- The environment's move `k` steps from now. -/
def State.moveAt (s : State) (k : Nat) : Move :=
  (s.moves[k]?).getD (Config.freeMove (s.tick + k))

/-- The environment's move at this step. -/
def State.move (s : State) : Move := s.moveAt 0

/-- `n` steps of the environment go by; the block keeps its state. -/
def State.elapse (n : Nat) (s : State) : State :=
  { s with moves := s.moves.drop n, tick := s.tick + n }

/-! ## Trace and lines -/

/-- `emit e` (R15, R16). -/
def State.emit (e : Event) (s : State) : State :=
  { s with trace := s.trace ++ [e] }

/-- `respond r` (R15, R77). -/
def State.respond (r : Response) (s : State) : State :=
  s.emit (.rsp r)

/-- Drive chip-select (R28). -/
def State.driveCs (l : Level) (s : State) : State :=
  { s with csN := l }.emit (.cs l)

/-- Drive the data/command line (R28). -/
def State.driveDc (l : Level) (s : State) : State :=
  { s with dc := l }.emit (.dc l)

/-- Drive the reset line (R28). -/
def State.driveRst (l : Level) (s : State) : State :=
  { s with rstN := l }.emit (.rst l)

/-- `upc <- upc + 1` (R25). -/
def State.nextMicroOp (s : State) : State :=
  { s with upc := s.upc + 1 }

/-- The run holds a refused request (R17, R29). -/
def State.markRefused (s : State) : State :=
  { s with refused := true }

/-! ## The framebuffer store (R30, R55; log 3) -/

/-- The byte an operation has written at index `i`, if any has. -/
def Memory.get? : Memory → Nat → Option Byte
  | [], _ => none
  | (a, v) :: m, i => if i = a then some v else Memory.get? m i

/-- `MemRead(i)` (R15): the latest byte written, or the content at creation (R43, R60). -/
def memRead (m : Memory) (i : Nat) : Byte :=
  (m.get? i).getD (Config.fbAtCreation i)

/-- `MemWrite(i, v)` (R15), on the canonical form. -/
def memWrite : Memory → Nat → Byte → Memory
  | [], i, v => [(i, v)]
  | (a, w) :: m, i, v =>
    if i < a then (i, v) :: (a, w) :: m
    else if i = a then (i, v) :: m
    else (a, w) :: memWrite m i v

/-- The store with every byte of the framebuffer written zero (R101). -/
def memZero (c : Config) : Memory :=
  (List.range c.fbBytes).map fun i => (i, 0#8)

/-- The bytes `[fb[0], fb[1], ..., fb[FB_BYTES-1]]` (R111). -/
def memFrame (c : Config) (m : Memory) : List Byte :=
  (List.range c.fbBytes).map fun i => memRead m i

/-- The canonical form: strictly rising indices, all of them in `0 .. FB_BYTES-1` (R30, R50). -/
abbrev Memory.wf (c : Config) (m : Memory) : Prop :=
  (m.map Prod.fst).Pairwise (· < ·) ∧ ∀ a ∈ m.map Prod.fst, a < c.fbBytes

/-! ## Taking an exception -/

/-- The exceptions, each with what it records (R160). -/
inductive Exception where
  | boundsError (x y : Int)
  | busFault
  | protocolTimeout
  deriving DecidableEq, Repr

/-- Entry of a fatal exception at micro-op `upc`: the record, the response, nothing else (R166). -/
def raiseFatal (code : FatalCause) (s : State) : State :=
  { s with fault := some ⟨code, s.upc⟩ }.respond (.err code s.upc)

/-- `raise X` (R15): BoundsError is absorbed and leaves a diagnostic (R161); the two others are fatal (R162, R163, R166). -/
def raise : Exception → State → State
  | .boundsError x y, s => s.emit (.diag 1 x y)
  | .busFault, s => raiseFatal .busFault s
  | .protocolTimeout, s => raiseFatal .protocolTimeout s

end Sys2Proof.Machine
end

