-- ==== Sys2Proof/Machine/Operands.lean ====
section
/-! DEFINITION. The pixel operand: the bounds test, the byte and the bit of a pixel (20_memory.md R51, R52, R66), and the
colour operand (00_scope.md R8). -/

namespace Sys2Proof.Machine

/-- `inb(x, y)` on the signed coordinates (R66). -/
def inBounds (c : Config) (x y : Int) : Bool :=
  decide (0 ≤ x ∧ x < c.width ∧ 0 ≤ y ∧ y < c.height)

/-- `i = idx(x, y div 8)`, for an in-bounds pixel (R51). -/
def pixelByte (c : Config) (x y : Int) : Nat := c.idx x.toNat (y.toNat / 8)

/-- `k = 7 - (y mod 8)`, for an in-bounds pixel (R52). -/
def pixelBit (y : Int) : Nat := 7 - y.toNat % 8

/-- `setbit(v, k, b)` (R13). -/
def setBit (v : Byte) (k : Nat) (b : Bool) : Byte :=
  if b then v ||| (1#8 <<< k) else v &&& ~~~(1#8 <<< k)

/-- The stored bit of a pixel: `MemRead(i)[k]`. -/
def readPixel (c : Config) (m : Memory) (x y : Int) : Bool :=
  (memRead m (pixelByte c x y)).getLsbD (pixelBit y)

/-- `MemWrite(i, setbit(MemRead(i), k, b))` (R55). -/
def writePixel (c : Config) (m : Memory) (x y : Int) (b : Bool) : Memory :=
  memWrite m (pixelByte c x y) (setBit (memRead m (pixelByte c x y)) (pixelBit y) b)

end Sys2Proof.Machine
end

