-- ==== Sys2Proof/Machine/Flags.lean ====
section
/-! DEFINITION. The status of the block. It has no condition codes; its one status flag is the fault record (10_state.md
R29). Here: the derived `ready` (R40), the code of `st` (R21), the exception codes (R160) and the response word (R77). -/

namespace Sys2Proof.Machine

/-- `ready` is `op = None ∧ fault = None` (R40). -/
def State.ready (s : State) : Bool := s.op.isNone && s.fault.isNone

/-- The three-bit code of `st` (R21). -/
def CtrlState.code : CtrlState → BitVec 3
  | .uninitialized => 0#3
  | .resetting => 1#3
  | .initializing => 2#3
  | .idle => 3#3
  | .refreshing => 4#3
  | .poweredOff => 5#3

/-- The code of a fatal cause (R160). -/
def FatalCause.code : FatalCause → BitVec 4
  | .busFault => 2#4
  | .protocolTimeout => 3#4

/-- A response as a 32-bit word (R77). -/
def Response.word : Response → Word
  | .ok => 0x00000000#32
  | .bit b => 0x10000000#32 ||| (BitVec.ofBool b).setWidth 32
  | .unknown => 0x20000000#32
  | .err code info => 0xF0000000#32 ||| (code.code.setWidth 32 <<< 24) ||| (BitVec.ofNat 24 info).setWidth 32

end Sys2Proof.Machine
end

