-- ==== Sys2Proof/Machine/Micro.lean ====
section
/-! DEFINITION. The micro-programs (42_controller_ops.md R126 to R129, 43_bus_commands.md R140), the step of each micro-op
(R123, R124, R125, R131), completion (R121), and the whole transaction of a bus command. -/

namespace Sys2Proof.Machine

/-! ## Micro-programs -/

/-- `XACT(r, p)` (R140). -/
def xact (r : Byte) (p : List Byte) : List MicroOp :=
  [.cs .low, .dc .low, .tx r, .dc .high] ++ p.map .tx ++ [.cs .high]

/-- The transaction of a register and its constant payload (R10, R80). -/
def xactInit (c : Config) (r : Reg) : List MicroOp := xact (c.addr r) (c.payload r)

/-- The transaction of a register without payload (R39, R80). -/
def xactBare (c : Config) (r : Reg) : List MicroOp := xact (c.addr r) []

/-- CT.RESET (R126). -/
def resetProgram (c : Config) : List MicroOp :=
  [.rst .low, .delay c.rstLow, .rst .high, .delay c.rstSettle, .waitBusy]

/-- CT.INIT (R127). -/
def initProgram (c : Config) : List MicroOp :=
  xactInit c .psr ++ xactInit c .pwr ++ xactBare c .pon ++ [.waitBusy] ++
  xactInit c .btst ++ xactInit c .pfs ++ xactInit c .tse ++ xactInit c .tcon ++
  xactInit c .cdi ++ xactInit c .pll ++ xactBare c .pof ++ [.waitBusy]

/-- CT.SENDFRAME and DA.PUSH (R128). -/
def sendFrameProgram (c : Config) (frame : List Byte) : List MicroOp :=
  xactBare c .pon ++ xactBare c .ptou ++ xact (c.addr .dtm2) frame ++ xactBare c .dsp ++
  xactBare c .drf ++ [.waitBusy] ++ xactBare c .pof

/-- `mprog(op, opnd)` (R27). An operation with operands that are not its own (no reachable state has one, log 16) has no
micro-op. -/
def mprog (c : Config) : OpKind → Operand → List MicroOp
  | .reset, _ => resetProgram c
  | .init, _ => initProgram c
  | .sendFrame, .frame bytes => sendFrameProgram c bytes
  | .sendFrame, _ => []
  | .cmd, .command reg payload => xact reg payload
  | .cmd, _ => []

/-- The micro-program in progress (R24, R27). -/
def State.program (c : Config) (s : State) : List MicroOp :=
  match s.op with
  | none => []
  | some op => mprog c op s.opnd

/-! ## The step of a micro-op -/

/-- A `TX` (R124). -/
def transmit (b : Byte) (s : State) : State :=
  if s.move.txFault then raise .busFault s else (s.emit (.tx b)).nextMicroOp

/-- A busy wait (R125): it passes when the line is deasserted; while it is asserted the block holds, unless a timeout that
is set fires (R163). -/
def busyWait (c : Config) (s : State) : State :=
  if s.move.busy then
    if s.move.timeout && c.busyTimeout.isSome then raise .protocolTimeout s else s
  else (s.emit .busyOk).nextMicroOp

/-- The step of micro-op `m` (R123, R124, R125, R131); one step of the environment goes by. -/
def microOp (c : Config) (m : MicroOp) (s : State) : State :=
  match m with
  | .cs l => ((s.driveCs l).nextMicroOp).elapse 1
  | .dc l => ((s.driveDc l).nextMicroOp).elapse 1
  | .rst l => ((s.driveRst l).nextMicroOp).elapse 1
  | .tx b => (transmit b s).elapse 1
  | .delay tmin => ((s.emit (.delay (tmin + s.move.overrun))).nextMicroOp).elapse 1
  | .waitBusy => (busyWait c s).elapse 1

/-! ## Acceptance and completion -/

/-- Whether the table of R23 has a row for the operation in a controller state. -/
def OpKind.allowed : OpKind → CtrlState → Bool
  | .reset, st => st == .uninitialized
  | .init, st => st == .resetting
  | .sendFrame, st => st == .idle
  | .cmd, st => st != .poweredOff

/-- `st` at acceptance (R23). -/
def OpKind.stAccepted : OpKind → CtrlState → CtrlState
  | .reset, _ => .resetting
  | .init, _ => .initializing
  | .sendFrame, _ => .refreshing
  | .cmd, st => st

/-- `st` at completion (R23). -/
def OpKind.stCompleted : OpKind → CtrlState → CtrlState
  | .reset, _ => .resetting
  | .init, _ => .idle
  | .sendFrame, _ => .idle
  | .cmd, st => st

/-- Acceptance of a controller operation (R120), or its refusal (R122, U8). -/
def accept (op : OpKind) (opnd : Operand) (s : State) : Host.Outcome State Fault Refusal :=
  if s.ready then
    if op.allowed s.st then
      .next ({ s with st := op.stAccepted s.st, op := some op, opnd := opnd, upc := 0 }.elapse 1)
    else .refused .outOfSequence
  else .refused .notReady

/-- Completion of an operation (R121). -/
def complete (op : OpKind) (s : State) : State :=
  ({ s with st := op.stCompleted s.st, op := none, opnd := .empty, upc := 0 }.respond .ok).elapse 1

/-- The step of a block with operation `op` in progress: the micro-op at `upc`, or completion (R121, R123). -/
def operationStep (c : Config) (op : OpKind) (s : State) : State :=
  match (mprog c op s.opnd)[s.upc]? with
  | some m => microOp c m s
  | none => complete op s

/-! ## A bus command as a whole -/

/-- The micro-ops of a list in order, up to the end or to a fatal exception (R140, R166). -/
def runMicroOps (c : Config) : List MicroOp → State → State
  | [], s => s
  | m :: ms, s => if (microOp c m s).fault.isSome then microOp c m s else runMicroOps c ms (microOp c m s)

/-- The transaction of a bus command, inside an operation in progress (R140; log 14). -/
def busCommand (c : Config) (r : Reg) (payload : List Byte) (s : State) : Host.Outcome State Fault Refusal :=
  match s.fault with
  | some f => .fault (.frozen f)
  | none =>
    match s.op with
    | none => .refused .noOperation
    | some _ => .next (runMicroOps c (xact (c.addr r) payload) s)

end Sys2Proof.Machine
end

