-- ==== Sys2Proof/Machine/Framebuffer.lean ====
section
/-! DEFINITION. The framebuffer operations (40_framebuffer.md R100 to R102) over what they share. -/

namespace Sys2Proof.Machine

/-- A framebuffer operation: accepted whenever `ready`, one indivisible step (R56, R71). -/
def immediate (effect : State → State) (s : State) : Host.Outcome State Fault Refusal :=
  if s.ready then .next ((effect s).elapse 1) else .refused .notReady

/-- `write(x, y, bit)`: one bit, or an absorbed BoundsError; OK either way (R100). -/
def pixelWrite (c : Config) (x y : Int) (b : Bool) (s : State) : State :=
  (if inBounds c x y then { s with fb := writePixel c s.fb x y b }
   else raise (.boundsError x y) s).respond .ok

/-- `clear()` (R101). -/
def clearAll (c : Config) (s : State) : State :=
  { s with fb := memZero c }.respond .ok

/-- The query operation: the stored bit or `UNKNOWN`, by the draw `avail`; `UNKNOWN` out of bounds (R102). -/
def pixelQuery (c : Config) (x y : Int) (s : State) : State :=
  if inBounds c x y then
    s.respond (if s.move.avail then .bit (readPixel c s.fb x y) else .unknown)
  else (raise (.boundsError x y) s).respond .unknown

/-- FB.WRITE (R100). -/
def execFbWrite (x y : Int) (b : Bool) (s : State) : Host.Outcome State Fault Refusal :=
  immediate (pixelWrite Config.b2040 x y b) s

/-- FB.CLEAR (R101). -/
def execFbClear (s : State) : Host.Outcome State Fault Refusal :=
  immediate (clearAll Config.b2040) s

/-- FB.QUERY (R102). -/
def execFbQuery (x y : Int) (s : State) : Host.Outcome State Fault Refusal :=
  immediate (pixelQuery Config.b2040 x y) s

end Sys2Proof.Machine
end

