-- ==== Sys2Proof/Machine/Adapter.lean ====
section
/-! DEFINITION. The display adapter's operations (41_display_adapter.md R110 to R112). -/

namespace Sys2Proof.Machine

/-- DA.PIXEL: the write of the colour's bit (R110). -/
def execDaPixel (x y : Int) (col : Color) (s : State) : Host.Outcome State Fault Refusal :=
  immediate (pixelWrite Config.b2040 x y (Config.b2040.bitOf col)) s

/-- DA.PUSH: CT.SENDFRAME of the raw bytes of the framebuffer (R111). -/
def execDaPush (s : State) : Host.Outcome State Fault Refusal :=
  accept .sendFrame (.frame (memFrame Config.b2040 s.fb)) s

/-- DA.CLEARBUF: FB.CLEAR (R112). -/
def execDaClearbuf (s : State) : Host.Outcome State Fault Refusal :=
  immediate (clearAll Config.b2040) s

end Sys2Proof.Machine
end

