-- ==== Sys2Proof/Machine/BusCommands.lean ====
section
/-! DEFINITION. The fourteen bus commands (43_bus_commands.md R141 to R155): each is the transaction of its register and
its payload. -/

namespace Sys2Proof.Machine

/-- PSR (R141). -/
def execPsr (p : Byte) (s : State) : Host.Outcome State Fault Refusal :=
  busCommand Config.b2040 .psr [p] s

/-- PWR (R142). -/
def execPwr (p0 p1 p2 p3 p4 : Byte) (s : State) : Host.Outcome State Fault Refusal :=
  busCommand Config.b2040 .pwr [p0, p1, p2, p3, p4] s

/-- PON (R143). -/
def execPon (s : State) : Host.Outcome State Fault Refusal :=
  busCommand Config.b2040 .pon [] s

/-- BTST (R144). -/
def execBtst (p0 p1 p2 : Byte) (s : State) : Host.Outcome State Fault Refusal :=
  busCommand Config.b2040 .btst [p0, p1, p2] s

/-- PFS (R145). -/
def execPfs (p : Byte) (s : State) : Host.Outcome State Fault Refusal :=
  busCommand Config.b2040 .pfs [p] s

/-- TSE (R146). -/
def execTse (p : Byte) (s : State) : Host.Outcome State Fault Refusal :=
  busCommand Config.b2040 .tse [p] s

/-- TCON (R147). -/
def execTcon (p : Byte) (s : State) : Host.Outcome State Fault Refusal :=
  busCommand Config.b2040 .tcon [p] s

/-- CDI (R148). -/
def execCdi (p : Byte) (s : State) : Host.Outcome State Fault Refusal :=
  busCommand Config.b2040 .cdi [p] s

/-- PLL (R149). -/
def execPll (p : Byte) (s : State) : Host.Outcome State Fault Refusal :=
  busCommand Config.b2040 .pll [p] s

/-- POF (R150). -/
def execPof (s : State) : Host.Outcome State Fault Refusal :=
  busCommand Config.b2040 .pof [] s

/-- PTOU (R151). -/
def execPtou (s : State) : Host.Outcome State Fault Refusal :=
  busCommand Config.b2040 .ptou [] s

/-- DTM2 (R153). -/
def execDtm2 (frame : List Byte) (s : State) : Host.Outcome State Fault Refusal :=
  busCommand Config.b2040 .dtm2 frame s

/-- DSP (R154). -/
def execDsp (s : State) : Host.Outcome State Fault Refusal :=
  busCommand Config.b2040 .dsp [] s

/-- DRF (R155). -/
def execDrf (s : State) : Host.Outcome State Fault Refusal :=
  busCommand Config.b2040 .drf [] s

end Sys2Proof.Machine
end

