-- ==== Sys2Proof/Machine/Controller.lean ====
section
/-! DEFINITION. The controller operations (42_controller_ops.md R126 to R130): what their request does. The micro-program
of an accepted operation is run by `step`, one micro-op a step (R120). -/

namespace Sys2Proof.Machine

/-- CT.RESET (R126). -/
def execCtReset (s : State) : Host.Outcome State Fault Refusal :=
  accept .reset .empty s

/-- CT.INIT (R127). -/
def execCtInit (s : State) : Host.Outcome State Fault Refusal :=
  accept .init .empty s

/-- CT.SENDFRAME (R128). -/
def execCtSendframe (frame : List Byte) (s : State) : Host.Outcome State Fault Refusal :=
  accept .sendFrame (.frame frame) s

/-- CT.CMD (R129). -/
def execCtCmd (reg : Byte) (payload : List Byte) (s : State) : Host.Outcome State Fault Refusal :=
  accept .cmd (.command reg payload) s

/-- CT.OFF: from `Idle` to `PoweredOff` in one step; nothing is sent (R130, D12). -/
def execCtOff (s : State) : Host.Outcome State Fault Refusal :=
  if s.ready then
    if s.st = .idle then .next (({ s with st := .poweredOff }.respond .ok).elapse 1)
    else .refused .outOfSequence
  else .refused .notReady

end Sys2Proof.Machine
end

