-- ==== Sys2Proof/Machine/Dispatch.lean ====
section
/-! DEFINITION. One arm per instruction. -/

namespace Sys2Proof.Machine

def exec (i : Instr) (s : State) : Host.Outcome State Fault Refusal :=
  match i with
  -- framebuffer operations
  | .fbWrite x y b => Sys2Proof.Machine.execFbWrite x y b s
  | .fbClear => Sys2Proof.Machine.execFbClear s
  | .fbQuery x y => Sys2Proof.Machine.execFbQuery x y s
  -- display adapter operations
  | .daPixel x y col => Sys2Proof.Machine.execDaPixel x y col s
  | .daPush => Sys2Proof.Machine.execDaPush s
  | .daClearbuf => Sys2Proof.Machine.execDaClearbuf s
  -- controller operations
  | .ctReset => Sys2Proof.Machine.execCtReset s
  | .ctInit => Sys2Proof.Machine.execCtInit s
  | .ctSendframe frame => Sys2Proof.Machine.execCtSendframe frame s
  | .ctCmd reg payload => Sys2Proof.Machine.execCtCmd reg payload s
  | .ctOff => Sys2Proof.Machine.execCtOff s
  -- bus commands
  | .psr p => Sys2Proof.Machine.execPsr p s
  | .pwr p0 p1 p2 p3 p4 => Sys2Proof.Machine.execPwr p0 p1 p2 p3 p4 s
  | .pon => Sys2Proof.Machine.execPon s
  | .btst p0 p1 p2 => Sys2Proof.Machine.execBtst p0 p1 p2 s
  | .pfs p => Sys2Proof.Machine.execPfs p s
  | .tse p => Sys2Proof.Machine.execTse p s
  | .tcon p => Sys2Proof.Machine.execTcon p s
  | .cdi p => Sys2Proof.Machine.execCdi p s
  | .pll p => Sys2Proof.Machine.execPll p s
  | .pof => Sys2Proof.Machine.execPof s
  | .ptou => Sys2Proof.Machine.execPtou s
  | .dtm2 frame => Sys2Proof.Machine.execDtm2 frame s
  | .dsp => Sys2Proof.Machine.execDsp s
  | .drf => Sys2Proof.Machine.execDrf s

end Sys2Proof.Machine
end

