-- ==== Sys2Proof/Machine/Fetch.lean ====
section
/-! DEFINITION. What the block does next (42_controller_ops.md R120 to R125, 30_encoding.md R71, R75, R76), and the placing
of an instruction's bits where it finds them. -/

namespace Sys2Proof.Machine

/-- What a step finds. -/
inductive Fetched where
  /-- The block is frozen by a fatal fault (R168). -/
  | frozen (r : FaultRecord)
  /-- The run is marked refused (R17). -/
  | refusedRun
  /-- An operation is in progress (R120). -/
  | operation (op : OpKind)
  /-- No request, or one whose stream has not arrived in full (R75, R190). -/
  | waiting
  /-- A request; the requests after it (R71). -/
  | request (i : Instr) (rest : List Request)
  /-- A request word or stream that is no request (R75, R76). -/
  | illegal (e : DecodeError)
  deriving DecidableEq, Repr

/-- The request at the head of the port. -/
def fetchRequest (c : Config) : List Request → Fetched
  | [] => .waiting
  | r :: rest =>
    match decodeRequest c r.word r.stream with
    | .instr i => .request i rest
    | .incomplete => .waiting
    | .rejected e => .illegal e

/-- What the block does next. -/
def fetch (c : Config) (s : State) : Fetched :=
  match s.fault with
  | some r => .frozen r
  | none =>
    if s.refused then .refusedRun
    else
      match s.op with
      | some op => .operation op
      | none => fetchRequest c s.inbox

/-- The block made ready, with a request at the head of the port (log 1). -/
def placeRequest (r : Request) (s : State) : State :=
  { s with op := none, opnd := .empty, upc := 0, fault := none, refused := false, inbox := r :: s.inbox }

/-- The block at the start of a transaction of the opcode byte, as CT.CMD has it (log 14). -/
def placeTransaction (opcode : Byte) (payload : List Byte) (s : State) : State :=
  { s with op := some .cmd, opnd := .command opcode payload, upc := 0, fault := none, refused := false }

/-- The bits of a table row where `step` finds its next instruction: 32 bits are a request word, 8 bits the opcode byte of a
bus command; the bytes that follow are zeros. -/
def placeWord (c : Config) (nbits w : Nat) (s : State) : State :=
  match nbits with
  | 8 => placeTransaction (BitVec.ofNat 8 w) (zeroPayload c (BitVec.ofNat 8 w)) s
  | _ => placeRequest ⟨BitVec.ofNat 32 w, zeroStream c (BitVec.ofNat 32 w)⟩ s

end Sys2Proof.Machine
end

