-- ==== Sys2Proof/Machine/Step.lean ====
section
/-! DEFINITION. One step of the machine (00_scope.md R17): a micro-op or the completion of the operation in progress, the
next request, or waiting. A hold and a wait are next states in which only the environment has moved (log 10). -/

namespace Sys2Proof.Machine

/-- One step. -/
def step (s : State) : Host.Outcome State Fault Refusal :=
  match fetch Config.b2040 s with
  | .frozen r => .fault (.frozen r)
  | .refusedRun => .refused .runRefused
  | .operation op => .next (operationStep Config.b2040 op s)
  | .waiting => .next (s.elapse 1)
  | .request i rest => exec i { s with inbox := rest }
  | .illegal e => .refused (.illegalRequest e)

/-- The state with the bits of an instruction where `step` finds its next instruction. -/
def State.withFetchWord (s : State) (nbits w : Nat) : State :=
  placeWord Config.b2040 nbits w s

end Sys2Proof.Machine
end

