-- ==== Sys2Proof/Safety.lean ====
section
/-! DEFINITION. The terms claims are stated in: traces (00_scope.md R16), sequences of operations (30_encoding.md R79), the
premises on the panel (42_controller_ops.md R133), the end of a run (70_reset_and_hazards.md R206), the patterns of request
words (30_encoding.md R73) and the invariant (10_state.md R41). -/

namespace Sys2Proof.Safety

open Sys2Proof.Machine

/-! ## Traces -/

/-- An event the panel sees (R16). -/
def isPanelEvent : Event → Bool
  | .cs _ => true
  | .dc _ => true
  | .rst _ => true
  | .tx _ => true
  | .delay _ => false
  | .busyOk => false
  | .diag _ _ _ => false
  | .rsp _ => false

/-- The panel trace: the trace restricted to `CS`, `DC`, `RST`, `TX` (R16). -/
def panelTrace (tr : List Event) : List Event := tr.filter isPanelEvent

/-- The bytes on the serial bus, in order. -/
def busBytes (tr : List Event) : List Byte :=
  tr.filterMap fun
    | .tx b => some b
    | _ => none

/-- The responses of a trace, in order. -/
def responses (tr : List Event) : List Response :=
  tr.filterMap fun
    | .rsp r => some r
    | _ => none

/-- The event a micro-op emits when it completes (R123, R124, R125, R131). -/
def eventOf (mv : Move) : MicroOp → Event
  | .cs l => .cs l
  | .dc l => .dc l
  | .rst l => .rst l
  | .tx b => .tx b
  | .delay tmin => .delay (tmin + mv.overrun)
  | .waitBusy => .busyOk

/-- The events of a list of micro-ops that completes, one a step, from a state. -/
def eventsFrom (s : State) (ops : List MicroOp) : List Event :=
  ops.mapIdx fun k m => eventOf (s.moveAt k) m

/-- The level of chip-select after a list of micro-ops, from a level before it (R123). -/
def csAfter (l : Level) (ops : List MicroOp) : Level :=
  ops.foldl (fun l m => match m with | .cs l' => l' | _ => l) l

/-- The level of the data/command line after a list of micro-ops (R123). -/
def dcAfter (l : Level) (ops : List MicroOp) : Level :=
  ops.foldl (fun l m => match m with | .dc l' => l' | _ => l) l

/-- The level of the reset line after a list of micro-ops (R123). -/
def rstAfter (l : Level) (ops : List MicroOp) : Level :=
  ops.foldl (fun l m => match m with | .rst l' => l' | _ => l) l

/-- The state after a list of micro-ops has completed, one a step: `upc`, the three lines and the trace; nothing else of the
block (R25, R28, R61). -/
def afterMicroOps (ops : List MicroOp) (s : State) : State :=
  { s with
    upc := s.upc + ops.length
    csN := csAfter s.csN ops
    dc := dcAfter s.dc ops
    rstN := rstAfter s.rstN ops
    trace := s.trace ++ eventsFrom s ops
    moves := s.moves.drop ops.length
    tick := s.tick + ops.length }

/-- The trace of a transaction (R140, R141). -/
def xactEvents (r : Byte) (p : List Byte) : List Event :=
  [.cs .low, .dc .low, .tx r, .dc .high] ++ p.map .tx ++ [.cs .high]

/-! ## The panel -/

/-- The environment lets the micro-op complete at a move: no bus fault for a `TX`, busy deasserted for a `WAITBUSY`. -/
def Lets (mv : Move) : MicroOp → Prop
  | .tx _ => mv.txFault = false
  | .waitBusy => mv.busy = false
  | _ => True

/-! ## Requests and responses -/

/-- A request that has been accepted and not yet answered: 1 while an operation is in progress without a fault (R71, R77). -/
def pending (s : State) : Nat := if s.op.isSome && s.fault.isNone then 1 else 0

/-- Every delay of a trace lasts at least ten milliseconds (R195). -/
def DelaysLong (tr : List Event) : Prop := ∀ d, Event.delay d ∈ tr → Config.tenMs ≤ d

/-- An operation that writes the framebuffer (R30). -/
def WritesFramebuffer : Instr → Prop
  | .fbWrite _ _ _ => True
  | .fbClear => True
  | .daPixel _ _ _ => True
  | .daClearbuf => True
  | _ => False

/-- The micro-ops of a bus command (R140 to R155). -/
def commandOps (c : Config) (i : Instr) : List MicroOp :=
  match i.busParts with
  | some (r, p) => xact (c.addr r) p
  | none => []

/-! ## Sequences of operations (R79) and runs (R206) -/

/-- Host operations that each take one step, one after the other. -/
def execAll : List Instr → State → Host.Outcome State Fault Refusal
  | [], s => .next s
  | i :: is, s =>
    match exec i s with
    | .next t => execAll is t
    | .fault r => .fault r
    | .refused r => .refused r

/-- The colour of the last occurrence of a pixel in a draw list (R113). -/
def lastColor (pixels : List (Int × Int × Color)) (x y : Int) : Option Color :=
  (pixels.reverse.find? fun p => p.1 == x && p.2.1 == y).map fun p => p.2.2

/-- The pseudo-operation `da.draw` (R79). -/
def draw (pixels : List (Int × Int × Color)) (s : State) : Host.Outcome State Fault Refusal :=
  execAll (pixels.map fun p => .daPixel p.1 p.2.1 p.2.2) s

/-- The pseudo-operation `boot` (R79). -/
def boot : List Instr := [.ctReset, .ctInit]

/-- The pseudo-operation `disp.push` (R79). -/
def dispPush : List Instr := [.daPush]

/-- The pseudo-operation `disp.clear` (R79). -/
def dispClear : List Instr := [.daClearbuf]

/-- A list of host operations as the requests the host makes (R73, R75, R79). -/
def requestsOf (c : Config) (is : List Instr) : List Request :=
  is.filterMap fun i =>
    match encode c i with
    | .request w stream => some ⟨w, stream⟩
    | .transaction _ _ => none

/-- `n` steps, up to the first fault or refusal. -/
def run : Nat → State → Host.Outcome State Fault Refusal
  | 0, s => .next s
  | n + 1, s =>
    match step s with
    | .next t => run n t
    | .fault r => .fault r
    | .refused r => .refused r

/-- One step of a run: a refusal marks the run and changes nothing else (R17, R29); a stopped machine stays as it is. -/
def runStep (s : State) : State :=
  match step s with
  | .next t => t
  | .fault _ => s
  | .refused _ => s.markRefused

/-- The end of a run (R206): no further request, the block ready, the run not refused. -/
def Final (s : State) : Prop := s.inbox = [] ∧ s.ready = true ∧ s.refused = false

/-- The block is at a busy wait (R125). -/
def AtWait (s : State) : Prop := s.fault = none ∧ (s.program Config.b2040)[s.upc]? = some .waitBusy

/-- The block is held at a busy wait (R125). -/
def Held (s : State) : Prop := AtWait s ∧ s.move.busy = true

/-- The premise `PanelResponsive`: at every `WAITBUSY` the run from the state comes to, the panel eventually holds busy
deasserted (R133). -/
def PanelResponsive (s : State) : Prop :=
  ∀ k t, run k s = .next t → AtWait t → ∃ j, (t.moveAt j).busy = false

/-- The same with bounds: at every `WAITBUSY` within `n` steps, busy is deasserted at one of the next `B` steps. -/
def PanelResponsiveWithin (n B : Nat) (s : State) : Prop :=
  ∀ k t, k < n → run k s = .next t → AtWait t → ∃ j, j < B ∧ (t.moveAt j).busy = false

/-! ## Request words -/

/-- The fixed bits of the eleven request words, as mask and pattern (R73). -/
def requestPatterns : List (Word × Word) :=
  [(0xFE000000#32, 0x10000000#32), (0xFFFFFFFF#32, 0x20000000#32), (0xFF000000#32, 0x30000000#32),
   (0xFE000000#32, 0x40000000#32), (0xFFFFFFFF#32, 0x50000000#32), (0xFFFFFFFF#32, 0x60000000#32),
   (0xFFFFFFFF#32, 0x80000000#32), (0xFFFFFFFF#32, 0x90000000#32), (0xFFFFFFFF#32, 0xA0000000#32),
   (0xFF000000#32, 0xB0000000#32), (0xFFFFFFFF#32, 0xC0000000#32)]

/-- The word names an operation (R73, R76). -/
def NamesOperation (w : Word) : Prop := ∃ p ∈ requestPatterns, w &&& p.1 = p.2

/-! ## The invariant -/

/-- Strictly inside a transaction of a micro-program: after its first micro-op and before its end (R41 (e)). -/
def InsideTransaction (ops : List MicroOp) (k : Nat) : Prop :=
  ∃ pre r p post, ops = pre ++ xact r p ++ post ∧ pre.length < k ∧ k < pre.length + (xact r p).length

/-- What the host port and the latches hold for an operation in progress (R24, R75). -/
def OperandOf : OpKind → Operand → Prop
  | .reset, o => o = .empty
  | .init, o => o = .empty
  | .sendFrame, o => ∃ bytes, o = .frame bytes ∧ bytes.length = Config.b2040.fbBytes
  | .cmd, o => ∃ reg payload, o = .command reg payload ∧ payload.length < 65536

/-- The invariants of R41 (a) to (f), of a state with no fault, with V13 (no `Initializing` or `Refreshing` without its
operation) and the operands of R24. -/
structure Healthy (s : State) : Prop where
  /-- (a) -/
  rest : s.op = none → s.upc = 0 ∧ s.opnd = .empty ∧ s.csN = .high
  /-- (b) -/
  op_reset : s.op = some .reset → s.st = .resetting
  op_init : s.op = some .init ↔ s.st = .initializing
  op_sendFrame : s.op = some .sendFrame ↔ s.st = .refreshing
  /-- (c) -/
  st_quiet : s.st = .uninitialized ∨ s.st = .idle ∨ s.st = .poweredOff → s.op = none ∨ s.op = some .cmd
  st_off : s.st = .poweredOff → s.op = none
  /-- (d) -/
  upc_range : s.upc ≤ (s.program Config.b2040).length
  /-- (e) -/
  cs_low : s.csN = .low → InsideTransaction (s.program Config.b2040) s.upc
  /-- (f) -/
  rst_low : s.rstN = .low → s.op = some .reset ∧ 1 ≤ s.upc ∧ s.upc ≤ 2
  /-- R24 -/
  operands : ∀ op, s.op = some op → OperandOf op s.opnd

/-- A fault record names the micro-op that faulted: a `TX` for BusFault, a `WAITBUSY` for ProtocolTimeout, which needs
`BUSY_TIMEOUT` (R160, R166). -/
def FrozenAt (s : State) (r : FaultRecord) : Prop :=
  r.info = s.upc ∧ s.op ≠ none ∧
  match r.code with
  | .busFault => ∃ b, (s.program Config.b2040)[s.upc]? = some (.tx b)
  | .protocolTimeout => (s.program Config.b2040)[s.upc]? = some .waitBusy ∧ Config.b2040.busyTimeout ≠ none

/-- The invariant of the machine. -/
structure Inv (s : State) : Prop where
  memory : s.fb.wf Config.b2040
  healthy : s.fault = none → Healthy s
  frozen : ∀ r, s.fault = some r → FrozenAt s r

end Sys2Proof.Safety
end

