-- ==== Sys2Proof/Certificates/Slice0/Obligations.lean ====
section
/-! DEFINITION. What is claimed of the model. Each claim cites the rules of spec/ it formalises. -/

open Sys2Proof Sys2Proof.Machine Sys2Proof.Safety

/-! ## Encodings -/

/-- The words and bytes written out in spec/95_test_vectors.md V3, V5, V7 decode to the instructions they stand for, and the
transactions of 43_bus_commands.md to theirs. -/
def Obligations.SpecWordsDecode : Prop :=
  decodeTableWord 32 0x1107F127 = some (.fbWrite 127 295 true) ∧
  decodeTableWord 32 0x11FFF005 = some (.fbWrite (-1) 5 true) ∧
  decodeTableWord 32 0x20000000 = some .fbClear ∧
  decodeTableWord 32 0x300C8005 = some (.fbQuery 200 5) ∧
  decodeTableWord 32 0x41FFD00A = some (.daPixel (-3) 10 .on) ∧
  decodeTableWord 32 0x50000000 = some .daPush ∧
  decodeTableWord 32 0x60000000 = some .daClearbuf ∧
  decodeTableWord 32 0x80000000 = some .ctReset ∧
  decodeTableWord 32 0x90000000 = some .ctInit ∧
  decodeTableWord 32 0xC0000000 = some .ctOff ∧
  decodeRequest Config.b2040 0xB0500001#32 [0x4C#8] = .instr (.ctCmd 0x50#8 [0x4C#8]) ∧
  (∀ frame : List Byte, frame.length = 4736 →
    decodeRequest Config.b2040 0xA0000000#32 frame = .instr (.ctSendframe frame)) ∧
  decodeTransaction Config.b2040 (Config.b2040.addr .psr) [0x9F#8] = .instr (.psr 0x9F#8) ∧
  decodeTransaction Config.b2040 (Config.b2040.addr .pon) [] = .instr .pon

/-- Decoding an encoded well-formed instruction gives it back, for every instruction of both levels and every configuration
that meets the constraints (R70 to R75, R80 to R82). -/
def Obligations.DecodeOfEncode : Prop :=
  ∀ c : Config, c.Valid → ∀ i : Instr, i.wellFormed c = true → decode c (encode c i) = .instr i

/-- Each encoded form has one meaning: what decodes to an instruction is the encoding of it, and the instruction is
well-formed. -/
def Obligations.EncodeOfDecode : Prop :=
  ∀ (c : Config) (e : Encoded) (i : Instr), decode c e = .instr i → encode c i = e ∧ i.wellFormed c = true

/-- The words that name an operation are exactly those of the fixed bit patterns of R73: such a word has a stream with which
it is an instruction, and no other word has one. -/
def Obligations.WordsNamedByThePatterns : Prop :=
  ∀ w : Word, NamesOperation w ↔ ∃ stream i, decodeRequest Config.b2040 w stream = .instr i

/-- A reserved or illegal request word is refused, changes no state and marks the run (R76). -/
def Obligations.IllegalWordsRefused : Prop :=
  ∀ (s : State) (r : Request) (rest : List Request), s.ready = true → s.refused = false → s.inbox = r :: rest →
    ¬ NamesOperation r.word →
    (∃ e, step s = .refused (.illegalRequest e) ∧
      (e = .noSuchOperation ↔ (hopField r.word).toNat ∈ [0x0, 0x7, 0xD, 0xE, 0xF])) ∧
    runStep s = { s with refused := true }

/-! ## Steps -/

/-- A ready block whose next request decodes to an instruction runs that instruction, with the request taken off the port
(R71). -/
def Obligations.StepRunsDecodedRequest : Prop :=
  ∀ (s : State) (r : Request) (rest : List Request) (i : Instr), s.ready = true → s.refused = false →
    s.inbox = r :: rest → decodeRequest Config.b2040 r.word r.stream = .instr i →
    step s = exec i { s with inbox := rest }

/-- A block with an operation in progress runs the micro-op at `upc` of its micro-program (R25, R120). -/
def Obligations.StepRunsMicroOp : Prop :=
  ∀ (s : State) (o : OpKind) (m : MicroOp), s.fault = none → s.refused = false → s.op = some o →
    (mprog Config.b2040 o s.opnd)[s.upc]? = some m → step s = .next (microOp Config.b2040 m s)

/-- The step of a line drive sets the line, emits the event and advances `upc`, whatever the environment does (R123). -/
def Obligations.LineDriveStep : Prop :=
  ∀ (s : State) (o : OpKind) (l : Level), s.fault = none → s.refused = false → s.op = some o →
    ((mprog Config.b2040 o s.opnd)[s.upc]? = some (.cs l) →
      step s = .next { s with csN := l, upc := s.upc + 1, trace := s.trace ++ [.cs l],
                              moves := s.moves.drop 1, tick := s.tick + 1 }) ∧
    ((mprog Config.b2040 o s.opnd)[s.upc]? = some (.dc l) →
      step s = .next { s with dc := l, upc := s.upc + 1, trace := s.trace ++ [.dc l],
                              moves := s.moves.drop 1, tick := s.tick + 1 }) ∧
    ((mprog Config.b2040 o s.opnd)[s.upc]? = some (.rst l) →
      step s = .next { s with rstN := l, upc := s.upc + 1, trace := s.trace ++ [.rst l],
                              moves := s.moves.drop 1, tick := s.tick + 1 })

/-- The step of a byte transmit: on `ok` the event and `upc + 1`; on `busfault` the fault record and the response
`ERR(2, upc)`, no `TX` event and no advance (R124). -/
def Obligations.TransmitStep : Prop :=
  ∀ (s : State) (o : OpKind) (b : Byte), s.fault = none → s.refused = false → s.op = some o →
    (mprog Config.b2040 o s.opnd)[s.upc]? = some (.tx b) →
    (s.move.txFault = false →
      step s = .next { s with upc := s.upc + 1, trace := s.trace ++ [.tx b],
                              moves := s.moves.drop 1, tick := s.tick + 1 }) ∧
    (s.move.txFault = true →
      step s = .next { s with fault := some ⟨.busFault, s.upc⟩,
                              trace := s.trace ++ [.rsp (.err .busFault s.upc)],
                              moves := s.moves.drop 1, tick := s.tick + 1 })

/-- The step of a busy wait: it passes at once when busy is deasserted; while busy is asserted the block, which has no
`BUSY_TIMEOUT` (log 9), holds, its state unchanged. In any configuration the micro-op passes, holds, or, only where
`BUSY_TIMEOUT` is set and fires, raises ProtocolTimeout (R125, R163). -/
def Obligations.BusyWaitStep : Prop :=
  (∀ (s : State) (o : OpKind), s.fault = none → s.refused = false → s.op = some o →
    (mprog Config.b2040 o s.opnd)[s.upc]? = some .waitBusy →
    (s.move.busy = false →
      step s = .next { s with upc := s.upc + 1, trace := s.trace ++ [.busyOk],
                              moves := s.moves.drop 1, tick := s.tick + 1 }) ∧
    (s.move.busy = true → step s = .next { s with moves := s.moves.drop 1, tick := s.tick + 1 })) ∧
  (∀ (c : Config) (s : State),
    (s.move.busy = false →
      microOp c .waitBusy s = { s with upc := s.upc + 1, trace := s.trace ++ [.busyOk],
                                       moves := s.moves.drop 1, tick := s.tick + 1 }) ∧
    (s.move.busy = true → c.busyTimeout = none ∨ s.move.timeout = false →
      microOp c .waitBusy s = { s with moves := s.moves.drop 1, tick := s.tick + 1 }) ∧
    (s.move.busy = true → c.busyTimeout ≠ none → s.move.timeout = true →
      microOp c .waitBusy s = { s with fault := some ⟨.protocolTimeout, s.upc⟩,
                                       trace := s.trace ++ [.rsp (.err .protocolTimeout s.upc)],
                                       moves := s.moves.drop 1, tick := s.tick + 1 }))

/-- The step of a delay always completes; it emits `DELAY(d)` with `d` at least the bound, and nothing else changes but `upc`
(R131). -/
def Obligations.DelayStep : Prop :=
  ∀ (s : State) (o : OpKind) (tmin d : Nat), s.fault = none → s.refused = false → s.op = some o →
    (mprog Config.b2040 o s.opnd)[s.upc]? = some (.delay tmin) → d = tmin + s.move.overrun →
    tmin ≤ d ∧
    step s = .next { s with upc := s.upc + 1, trace := s.trace ++ [.delay d],
                            moves := s.moves.drop 1, tick := s.tick + 1 }

/-- Completion: when `upc` has reached the end of the micro-program, `st` takes the table's value, `op`, `opnd` and `upc` are
cleared and `OK` is sent; the lines keep their levels (R121). -/
def Obligations.CompletionStep : Prop :=
  ∀ (s : State) (o : OpKind), s.fault = none → s.refused = false → s.op = some o →
    s.upc = (mprog Config.b2040 o s.opnd).length →
    step s = .next { s with
      st := (match o with
        | .reset => .resetting
        | .init => .idle
        | .sendFrame => .idle
        | .cmd => s.st)
      op := none, opnd := .empty, upc := 0, trace := s.trace ++ [.rsp .ok],
      moves := s.moves.drop 1, tick := s.tick + 1 }

/-- A ready block does nothing until there is a request whose stream has arrived in full (R75, R190). -/
def Obligations.WaitingBlockKeepsItsState : Prop :=
  ∀ s : State, s.ready = true → s.refused = false →
    (s.inbox = [] → step s = .next { s with moves := s.moves.drop 1, tick := s.tick + 1 }) ∧
    (∀ stream rest, s.inbox = ⟨0xA0000000#32, stream⟩ :: rest → stream.length < Config.b2040.fbBytes →
      step s = .next { s with moves := s.moves.drop 1, tick := s.tick + 1 }) ∧
    (∀ (reg : Byte) (n : BitVec 16) stream rest,
      s.inbox = ⟨0xB0#8 ++ reg ++ n, stream⟩ :: rest → stream.length < n.toNat →
      step s = .next { s with moves := s.moves.drop 1, tick := s.tick + 1 })

/-- After a fatal exception the block has no step and accepts no request, framebuffer requests included (R168). How that shows
is the model's own choice: `step`, and `exec` of a bus command, answer the fault `frozen` (log 12), and `exec`, given a host
operation there, refuses it under the name `notReady` (log 12, log 13); in the spec the block has no step then, the host has no
move and nothing is refused. -/
def Obligations.FrozenAfterFault : Prop :=
  ∀ (s : State) (r : FaultRecord), s.fault = some r →
    step s = .fault (.frozen r) ∧ runStep s = s ∧
    (∀ i : Instr, i.isHostOp = true → exec i s = .refused .notReady) ∧
    (∀ i : Instr, i.isHostOp = false → exec i s = .fault (.frozen r))

/-- While an operation is in progress no request is accepted, and none is taken off the port (R71, R196). That `exec`, given a
host operation there, refuses it under the name `notReady` is the model's own choice (log 13, from U8 of
93_implementation_defined.md): in the spec the host has no move and nothing is refused. -/
def Obligations.OneRequestAtATime : Prop :=
  ∀ (s : State) (o : OpKind), s.op = some o →
    (∀ i : Instr, i.isHostOp = true → exec i s = .refused .notReady) ∧
    (∀ t : State, step s = .next t → t.inbox = s.inbox)

/-- Exactly one response per accepted request: the responses sent, the request in progress and the requests still to come
add up to the same number before and after every step (R71, R77). -/
def Obligations.EveryRequestAnsweredOnce : Prop :=
  ∀ s t : State, step s = .next t →
    (responses t.trace).length + pending t + t.inbox.length =
    (responses s.trace).length + pending s + s.inbox.length

/-! ## Framebuffer and adapter -/

/-- FB.WRITE of an in-bounds pixel: the pixel's bit takes the value, the seven other bits of its byte and every other byte
keep theirs, the response is OK, and nothing else of the block changes (R100, R103 (a)). -/
def Obligations.FbWriteStoresOneBit : Prop :=
  ∀ (s : State) (x y : Int) (b : Bool), s.ready = true → inBounds Config.b2040 x y = true →
    ∃ fb : Memory,
      exec (.fbWrite x y b) s = .next { s with fb := fb, trace := s.trace ++ [.rsp .ok],
                                               moves := s.moves.drop 1, tick := s.tick + 1 } ∧
      (memRead fb (pixelByte Config.b2040 x y)).getLsbD (pixelBit y) = b ∧
      (∀ k, k < 8 → k ≠ pixelBit y →
        (memRead fb (pixelByte Config.b2040 x y)).getLsbD k =
        (memRead s.fb (pixelByte Config.b2040 x y)).getLsbD k) ∧
      (∀ a, a ≠ pixelByte Config.b2040 x y → memRead fb a = memRead s.fb a)

/-- DA.PIXEL of an in-bounds pixel: as FB.WRITE with the bit of the colour, which for `Off` is the bit the panel renders as
black and for `On` the other one (R110). -/
def Obligations.DaPixelStoresTheColour : Prop :=
  ∀ (s : State) (x y : Int) (col : Color), s.ready = true → inBounds Config.b2040 x y = true →
    ∃ fb : Memory,
      exec (.daPixel x y col) s = .next { s with fb := fb, trace := s.trace ++ [.rsp .ok],
                                                 moves := s.moves.drop 1, tick := s.tick + 1 } ∧
      (memRead fb (pixelByte Config.b2040 x y)).getLsbD (pixelBit y) =
        (match col with
          | .off => Config.b2040.blackBit
          | .on => !Config.b2040.blackBit) ∧
      (∀ k, k < 8 → k ≠ pixelBit y →
        (memRead fb (pixelByte Config.b2040 x y)).getLsbD k =
        (memRead s.fb (pixelByte Config.b2040 x y)).getLsbD k) ∧
      (∀ a, a ≠ pixelByte Config.b2040 x y → memRead fb a = memRead s.fb a)

/-- BoundsError: a pixel operation out of bounds emits one diagnostic and nothing else happens; every byte of the framebuffer,
`st`, `fault` and every other register keep their values; FB.WRITE and DA.PIXEL answer OK, FB.QUERY answers UNKNOWN (R161,
R103 (b)). -/
def Obligations.OutOfBoundsAbsorbed : Prop :=
  ∀ (s : State) (x y : Int) (b : Bool) (col : Color), s.ready = true →
    ¬ (0 ≤ x ∧ x < Config.b2040.width ∧ 0 ≤ y ∧ y < Config.b2040.height) →
    exec (.fbWrite x y b) s = .next { s with trace := s.trace ++ [.diag 1 x y, .rsp .ok],
                                             moves := s.moves.drop 1, tick := s.tick + 1 } ∧
    exec (.daPixel x y col) s = .next { s with trace := s.trace ++ [.diag 1 x y, .rsp .ok],
                                               moves := s.moves.drop 1, tick := s.tick + 1 } ∧
    exec (.fbQuery x y) s = .next { s with trace := s.trace ++ [.diag 1 x y, .rsp .unknown],
                                           moves := s.moves.drop 1, tick := s.tick + 1 }

/-- FB.CLEAR and DA.CLEARBUF: every byte of the framebuffer reads zero, the response is OK, and nothing else of the block
changes (R101, R112). -/
def Obligations.ClearZeroesEveryByte : Prop :=
  ∀ s : State, s.ready = true →
    ∃ fb : Memory,
      exec .fbClear s = .next { s with fb := fb, trace := s.trace ++ [.rsp .ok],
                                       moves := s.moves.drop 1, tick := s.tick + 1 } ∧
      exec .daClearbuf s = .next { s with fb := fb, trace := s.trace ++ [.rsp .ok],
                                          moves := s.moves.drop 1, tick := s.tick + 1 } ∧
      (∀ a, a < Config.b2040.fbBytes → memRead fb a = 0#8)

/-- FB.QUERY answers the stored bit or UNKNOWN, by the draw, for an in-bounds pixel, and UNKNOWN with a diagnostic for any
other; nothing else of the block changes (R102). -/
def Obligations.QueryNeverWrong : Prop :=
  ∀ (s : State) (x y : Int), s.ready = true →
    (inBounds Config.b2040 x y = true →
      (s.move.avail = true → exec (.fbQuery x y) s = .next { s with
        trace := s.trace ++ [.rsp (.bit ((memRead s.fb (pixelByte Config.b2040 x y)).getLsbD (pixelBit y)))],
        moves := s.moves.drop 1, tick := s.tick + 1 }) ∧
      (s.move.avail = false → exec (.fbQuery x y) s = .next { s with
        trace := s.trace ++ [.rsp .unknown], moves := s.moves.drop 1, tick := s.tick + 1 })) ∧
    (inBounds Config.b2040 x y = false → exec (.fbQuery x y) s = .next { s with
      trace := s.trace ++ [.diag 1 x y, .rsp .unknown], moves := s.moves.drop 1, tick := s.tick + 1 })

/-- The map from the in-bounds pixels to byte and bit is a bijection onto the bytes and bits of the framebuffer, for every
configuration that meets the constraints (R53). -/
def Obligations.PixelMapBijective : Prop :=
  ∀ c : Config, c.Valid →
    (∀ x y, inBounds c x y = true → pixelByte c x y < c.fbBytes ∧ pixelBit y < 8) ∧
    (∀ i k, i < c.fbBytes → k < 8 →
      ∃! p : Int × Int, inBounds c p.1 p.2 = true ∧ pixelByte c p.1 p.2 = i ∧ pixelBit p.2 = k)

/-- At the default geometry and layout, the in-bounds pixels are `[0,128) × [0,296)`, pixel `(x, y)` is in byte
`37 * x + y div 8`, and its bit is `7 - (y mod 8)` (R51, R52, R66; the defaults are the model's choice, log 5). -/
def Obligations.DefaultPixelAddresses : Prop :=
  ∀ x y : Int,
    (inBounds Config.b2040 x y = true ↔ 0 ≤ x ∧ x < 128 ∧ 0 ≤ y ∧ y < 296) ∧
    (inBounds Config.b2040 x y = true →
      (pixelByte Config.b2040 x y : Int) = 37 * x + y / 8 ∧ (pixelBit y : Int) = 7 - y % 8)

/-- Two writes to different in-bounds pixels commute, as whole states; two writes to the same pixel leave the later value
(R103 (e)). -/
def Obligations.PixelWritesCommute : Prop :=
  ∀ (s : State) (x y x' y' : Int) (b b' : Bool), s.ready = true →
    inBounds Config.b2040 x y = true → inBounds Config.b2040 x' y' = true →
    ((x, y) ≠ (x', y') →
      execAll [.fbWrite x y b, .fbWrite x' y' b'] s = execAll [.fbWrite x' y' b', .fbWrite x y b] s) ∧
    (∃ t u, execAll [.fbWrite x y b, .fbWrite x y b'] s = .next t ∧ exec (.fbWrite x y b') s = .next u ∧
      t.fb = u.fb)

/-- After FB.CLEAR and a write of one value to every in-bounds pixel, in any order, every byte of the framebuffer is 0xFF or
0x00 (R103 (c), (d)). -/
def Obligations.FillAfterClear : Prop :=
  ∀ (s : State) (pixels : List (Int × Int)) (b : Bool), s.ready = true →
    (∀ p ∈ pixels, inBounds Config.b2040 p.1 p.2 = true) →
    (∀ x y, inBounds Config.b2040 x y = true → (x, y) ∈ pixels) →
    ∃ t, execAll (.fbClear :: pixels.map fun p => .fbWrite p.1 p.2 b) s = .next t ∧
      ∀ a, a < Config.b2040.fbBytes → memRead t.fb a = if b then 0xFF#8 else 0x00#8

/-- A draw call: every in-bounds pixel of the list ends with the bit of its last colour, every pixel not in the list keeps
its own, one diagnostic is emitted per out-of-bounds element in list order, and nothing else of the block changes (R113). -/
def Obligations.DrawKeepsLastColour : Prop :=
  ∀ (s : State) (pixels : List (Int × Int × Color)), s.ready = true →
    ∃ fb : Memory,
      draw pixels s = .next { s with
        fb := fb
        trace := s.trace ++ pixels.flatMap fun p =>
          if inBounds Config.b2040 p.1 p.2.1 then [.rsp .ok] else [.diag 1 p.1 p.2.1, .rsp .ok]
        moves := s.moves.drop pixels.length
        tick := s.tick + pixels.length } ∧
      ∀ x y, inBounds Config.b2040 x y = true →
        readPixel Config.b2040 fb x y =
          match lastColor pixels x y with
          | some col => Config.b2040.bitOf col
          | none => readPixel Config.b2040 s.fb x y

/-- DA.PUSH in `Idle` starts the transmission of the raw bytes of the framebuffer, byte `j` of the frame being `fb[j]`; the
framebuffer is not modified (R111). -/
def Obligations.PushSendsRawBytes : Prop :=
  ∀ s : State, s.ready = true → s.st = .idle →
    ∃ frame : List Byte,
      exec .daPush s = .next { s with st := .refreshing, op := some .sendFrame, opnd := .frame frame, upc := 0,
                                      moves := s.moves.drop 1, tick := s.tick + 1 } ∧
      frame.length = Config.b2040.fbBytes ∧
      ∀ j, j < Config.b2040.fbBytes → frame[j]? = some (memRead s.fb j)

/-- Under the default polarity a cleared buffer is an all-black frame (R101, R201; the defaults are the model's choice, log
5). -/
def Obligations.ClearedBufferIsBlack : Prop :=
  ∀ s : State, s.ready = true → ∃ t, exec .daClearbuf s = .next t ∧
    ∀ x y, inBounds Config.b2040 x y = true → readPixel Config.b2040 t.fb x y = Config.b2040.blackBit

/-! ## Controller operations -/

/-- Acceptance of a controller operation in a state the table allows, in one step and without an event (R120). -/
def Obligations.ControllerOperationsAccepted : Prop :=
  ∀ s : State, s.ready = true →
    (s.st = .uninitialized →
      exec .ctReset s = .next { s with st := .resetting, op := some .reset, opnd := .empty, upc := 0,
                                       moves := s.moves.drop 1, tick := s.tick + 1 }) ∧
    (s.st = .resetting →
      exec .ctInit s = .next { s with st := .initializing, op := some .init, opnd := .empty, upc := 0,
                                      moves := s.moves.drop 1, tick := s.tick + 1 }) ∧
    (s.st = .idle → ∀ frame,
      exec (.ctSendframe frame) s = .next { s with st := .refreshing, op := some .sendFrame, opnd := .frame frame, upc := 0,
                                                   moves := s.moves.drop 1, tick := s.tick + 1 }) ∧
    (s.st = .idle →
      exec .daPush s = .next { s with st := .refreshing, op := some .sendFrame,
                                      opnd := .frame (memFrame Config.b2040 s.fb), upc := 0,
                                      moves := s.moves.drop 1, tick := s.tick + 1 }) ∧
    (s.st ≠ .poweredOff → ∀ reg payload,
      exec (.ctCmd reg payload) s = .next { s with op := some .cmd, opnd := .command reg payload, upc := 0,
                                                   moves := s.moves.drop 1, tick := s.tick + 1 })

/-- A controller request that the state chain does not allow is refused (R122). -/
def Obligations.OutOfSequenceRefused : Prop :=
  ∀ s : State, s.ready = true →
    (s.st ≠ .uninitialized → exec .ctReset s = .refused .outOfSequence) ∧
    (s.st ≠ .resetting → exec .ctInit s = .refused .outOfSequence) ∧
    (s.st ≠ .idle → ∀ frame, exec (.ctSendframe frame) s = .refused .outOfSequence) ∧
    (s.st ≠ .idle → exec .daPush s = .refused .outOfSequence) ∧
    (s.st ≠ .idle → exec .ctOff s = .refused .outOfSequence) ∧
    (s.st = .poweredOff → ∀ reg payload, exec (.ctCmd reg payload) s = .refused .outOfSequence)

/-- CT.OFF in `Idle`: `PoweredOff` and OK in one step; nothing is sent and no line changes; afterwards every controller
request is refused and the framebuffer operations are still accepted (R130). That nothing is sent is the spec's own choice
(D12, N10), which errs toward proving: the source names no bus sequence for the transition and does not say that there is none. -/
def Obligations.OffIsTerminal : Prop :=
  ∀ s : State, s.ready = true → s.st = .idle →
    exec .ctOff s = .next { s with st := .poweredOff, trace := s.trace ++ [.rsp .ok],
                                   moves := s.moves.drop 1, tick := s.tick + 1 } ∧
    ∀ t, exec .ctOff s = .next t →
      (∀ i ∈ [Instr.daPush, .ctReset, .ctInit, .ctOff], exec i t = .refused .outOfSequence) ∧
      (∀ frame, exec (.ctSendframe frame) t = .refused .outOfSequence) ∧
      (∀ reg payload, exec (.ctCmd reg payload) t = .refused .outOfSequence) ∧
      (∀ x y b col, ∀ i ∈ [Instr.fbWrite x y b, .fbClear, .fbQuery x y, .daPixel x y col, .daClearbuf],
        ∃ u, exec i t = .next u ∧ u.st = .poweredOff)

/-- The micro-program of CT.RESET: the delay of the low level is `T_RST_LOW`, the one before the busy wait `T_RST_SETTLE`
(R126), and both are at least ten milliseconds (R11). -/
def Obligations.ResetProgram : Prop :=
  ∀ (c : Config) (d : Operand), c.Valid →
    mprog c .reset d = [.rst .low, .delay c.rstLow, .rst .high, .delay c.rstSettle, .waitBusy] ∧
    Config.tenMs ≤ c.rstLow ∧ Config.tenMs ≤ c.rstSettle

/-- The micro-program of CT.INIT: ten bus commands in the order of the table, with the busy waits after PON and POF; 66
micro-ops, busy waits exactly at `upc` 21 and 65, 24 transmits (R127). -/
def Obligations.InitProgram : Prop :=
  ∀ (c : Config) (d : Operand), c.Valid →
    ∃ psr pwr0 pwr1 pwr2 pwr3 pwr4 btst pfs tse tcon cdi pll,
      c.payload .psr = [psr] ∧ c.payload .pwr = [pwr0, pwr1, pwr2, pwr3, pwr4] ∧ c.payload .btst = [btst, btst, btst] ∧
      c.payload .pfs = [pfs] ∧ c.payload .tse = [tse] ∧ c.payload .tcon = [tcon] ∧ c.payload .cdi = [cdi] ∧
      c.payload .pll = [pll] ∧
      mprog c .init d =
        commandOps c (.psr psr) ++ commandOps c (.pwr pwr0 pwr1 pwr2 pwr3 pwr4) ++ commandOps c .pon ++ [.waitBusy] ++
        commandOps c (.btst btst btst btst) ++ commandOps c (.pfs pfs) ++ commandOps c (.tse tse) ++
        commandOps c (.tcon tcon) ++ commandOps c (.cdi cdi) ++ commandOps c (.pll pll) ++ commandOps c .pof ++
        [.waitBusy] ∧
      (mprog c .init d).length = 66 ∧
      (∀ k, (mprog c .init d)[k]? = some .waitBusy ↔ k = 21 ∨ k = 65) ∧
      ((mprog c .init d).filter fun m => match m with | .tx _ => true | _ => false).length = 24

/-- The micro-program of CT.SENDFRAME and DA.PUSH: six bus commands and one busy wait; `31 + B` micro-ops, `6 + B` transmits,
frame byte `j` at `upc` `14 + j`, the busy wait at `25 + B` and nowhere else (R128). -/
def Obligations.SendFrameProgram : Prop :=
  ∀ (c : Config) (frame : List Byte), frame.length = c.fbBytes →
    mprog c .sendFrame (.frame frame) =
      commandOps c .pon ++ commandOps c .ptou ++ commandOps c (.dtm2 frame) ++ commandOps c .dsp ++ commandOps c .drf ++
      [.waitBusy] ++ commandOps c .pof ∧
    (mprog c .sendFrame (.frame frame)).length = 31 + c.fbBytes ∧
    (∀ k, (mprog c .sendFrame (.frame frame))[k]? = some .waitBusy ↔ k = 25 + c.fbBytes) ∧
    (∀ j b, frame[j]? = some b → (mprog c .sendFrame (.frame frame))[14 + j]? = some (.tx b)) ∧
    ((mprog c .sendFrame (.frame frame)).filter fun m => match m with | .tx _ => true | _ => false).length =
      6 + c.fbBytes

/-- An operation in progress whose remaining micro-ops the environment lets complete runs to its end: one step a micro-op,
their events in order, then the completion step (R25, R61, R121). -/
def Obligations.OperationRunsToCompletion : Prop :=
  ∀ (s : State) (o : OpKind), s.fault = none → s.refused = false → s.op = some o →
    s.upc ≤ (mprog Config.b2040 o s.opnd).length →
    (∀ k m, (mprog Config.b2040 o s.opnd)[s.upc + k]? = some m → Lets (s.moveAt k) m) →
    ∃ t, run ((mprog Config.b2040 o s.opnd).length - s.upc + 1) s = .next t ∧
      t = { s with
        st := o.stCompleted s.st, op := none, opnd := .empty, upc := 0
        csN := csAfter s.csN ((mprog Config.b2040 o s.opnd).drop s.upc)
        dc := dcAfter s.dc ((mprog Config.b2040 o s.opnd).drop s.upc)
        rstN := rstAfter s.rstN ((mprog Config.b2040 o s.opnd).drop s.upc)
        trace := s.trace ++ eventsFrom s ((mprog Config.b2040 o s.opnd).drop s.upc) ++ [.rsp .ok]
        moves := s.moves.drop ((mprog Config.b2040 o s.opnd).length - s.upc + 1)
        tick := s.tick + ((mprog Config.b2040 o s.opnd).length - s.upc + 1) }

/-- CT.RESET from acceptance to its response, busy deasserted when the busy wait is reached: the trace of R126's example, the
delays at least `T_RST_LOW` and `T_RST_SETTLE`, so at least ten milliseconds, `st` ends as `Resetting`, and nothing else of
the block changes. -/
def Obligations.ResetRun : Prop :=
  ∀ s : State, s.ready = true → s.refused = false → s.st = .uninitialized → (s.moveAt 5).busy = false →
    ∃ u d1 d2, exec .ctReset s = .next u ∧
      Config.b2040.rstLow ≤ d1 ∧ Config.b2040.rstSettle ≤ d2 ∧ Config.tenMs ≤ d1 ∧ Config.tenMs ≤ d2 ∧
      run 6 u = .next { s with
        st := .resetting, op := none, opnd := .empty, upc := 0, rstN := .high
        trace := s.trace ++ [.rst .low, .delay d1, .rst .high, .delay d2, .busyOk, .rsp .ok]
        moves := s.moves.drop 7, tick := s.tick + 7 }

/-- CT.INIT from acceptance to its response, busy deasserted when each busy wait is reached and no transmit faulting: ten transactions and two busy waits in the
order of R127, `st` ends as `Idle`, the lines as after a transaction, and nothing else of the block changes. -/
def Obligations.InitRun : Prop :=
  ∀ s : State, s.ready = true → s.refused = false → s.st = .resetting →
    (∀ k m, (mprog Config.b2040 .init .empty)[k]? = some m → Lets (s.moveAt (k + 1)) m) →
    ∃ u, exec .ctInit s = .next u ∧
      run 67 u = .next { s with
        st := .idle, op := none, opnd := .empty, upc := 0, csN := .high, dc := .high
        trace := s.trace ++
          (xactEvents (Config.b2040.addr .psr) (Config.b2040.payload .psr) ++
           xactEvents (Config.b2040.addr .pwr) (Config.b2040.payload .pwr) ++
           xactEvents (Config.b2040.addr .pon) [] ++ [.busyOk] ++
           xactEvents (Config.b2040.addr .btst) (Config.b2040.payload .btst) ++
           xactEvents (Config.b2040.addr .pfs) (Config.b2040.payload .pfs) ++
           xactEvents (Config.b2040.addr .tse) (Config.b2040.payload .tse) ++
           xactEvents (Config.b2040.addr .tcon) (Config.b2040.payload .tcon) ++
           xactEvents (Config.b2040.addr .cdi) (Config.b2040.payload .cdi) ++
           xactEvents (Config.b2040.addr .pll) (Config.b2040.payload .pll) ++
           xactEvents (Config.b2040.addr .pof) [] ++ [.busyOk]) ++ [.rsp .ok]
        moves := s.moves.drop 68, tick := s.tick + 68 }

/-- CT.SENDFRAME and DA.PUSH from acceptance to the response, busy deasserted when the busy wait is reached and no transmit
faulting: the six commands of R128 around the frame, with the one busy wait; `st` ends as `Idle`; the framebuffer and
everything else of the block unchanged. For DA.PUSH the frame is the framebuffer's bytes (R111). The frame of 4736 bytes is
the default geometry, the model's choice (log 5). -/
def Obligations.SendFrameRun : Prop :=
  ∀ (s : State) (frame : List Byte) (i : Instr), s.ready = true → s.refused = false → s.st = .idle →
    (∀ k m, (mprog Config.b2040 .sendFrame (.frame frame))[k]? = some m → Lets (s.moveAt (k + 1)) m) →
    frame.length = 4736 →
    (i = .ctSendframe frame ∨
      i = .daPush ∧ ∀ j, j < 4736 → frame[j]? = some (memRead s.fb j)) →
    ∃ u, exec i s = .next u ∧
      run 4768 u = .next { s with
        st := .idle, op := none, opnd := .empty, upc := 0, csN := .high, dc := .high
        trace := s.trace ++
          (xactEvents (Config.b2040.addr .pon) [] ++ xactEvents (Config.b2040.addr .ptou) [] ++
           xactEvents (Config.b2040.addr .dtm2) frame ++ xactEvents (Config.b2040.addr .dsp) [] ++
           xactEvents (Config.b2040.addr .drf) [] ++ [.busyOk] ++ xactEvents (Config.b2040.addr .pof) []) ++ [.rsp .ok]
        moves := s.moves.drop 4769, tick := s.tick + 4769 }

/-- CT.CMD from acceptance to its response, no bus fault: one transaction, `st` unchanged, the lines as after a transaction,
and nothing else of the block changes, whatever the busy line does (R129). -/
def Obligations.CmdRun : Prop :=
  ∀ (s : State) (reg : Byte) (payload : List Byte), s.ready = true → s.refused = false → s.st ≠ .poweredOff →
    (∀ k, k = 3 ∨ 5 ≤ k ∧ k < 5 + payload.length → (s.moveAt k).txFault = false) →
    ∃ u, exec (.ctCmd reg payload) s = .next u ∧
      run (6 + payload.length) u = .next { s with
        op := none, opnd := .empty, upc := 0, csN := .high, dc := .high
        trace := s.trace ++ xactEvents reg payload ++ [.rsp .ok]
        moves := s.moves.drop (7 + payload.length), tick := s.tick + (7 + payload.length) }

/-- A hang: a block at a busy wait whose panel keeps busy asserted is where it was after any number of steps: no event, no
response, no fault (R125, R169; the block has no `BUSY_TIMEOUT`, log 9). -/
def Obligations.UnresponsivePanelHangs : Prop :=
  ∀ (s : State) (o : OpKind) (n : Nat), s.fault = none → s.refused = false → s.op = some o →
    (mprog Config.b2040 o s.opnd)[s.upc]? = some .waitBusy →
    (∀ k, k < n → (s.moveAt k).busy = true) →
    run n s = .next { s with moves := s.moves.drop n, tick := s.tick + n }

/-- CT.CMD completes or faults in a bounded number of steps, whatever the panel does (R133). -/
def Obligations.CmdTerminates : Prop :=
  ∀ (s : State) (reg : Byte) (payload : List Byte), s.fault = none → s.refused = false → s.op = some .cmd →
    s.opnd = .command reg payload → s.upc ≤ 5 + payload.length →
    ∃ n t, n ≤ 5 + payload.length + 1 ∧ run n s = .next t ∧ (t.op = none ∨ t.fault ≠ none)

/-- Under the premise `PanelResponsive` (at every busy wait, busy is eventually deasserted) every operation in progress
completes or faults (R133); where each wait sees busy deasserted within `B` steps, it does so in at most `B` steps for each
micro-op left and one more time `B`. -/
def Obligations.ResponsivePanelTerminates : Prop :=
  ∀ (s : State) (o : OpKind), s.fault = none → s.refused = false → s.op = some o →
    s.upc ≤ (mprog Config.b2040 o s.opnd).length →
    (PanelResponsive s → ∃ k t, run k s = .next t ∧ (t.op = none ∨ t.fault ≠ none)) ∧
    (∀ B n, 1 ≤ B → n = ((mprog Config.b2040 o s.opnd).length - s.upc + 1) * B → PanelResponsiveWithin n B s →
      ∃ k t, k ≤ n ∧ run k s = .next t ∧ (t.op = none ∨ t.fault ≠ none))

/-! ## Bus commands -/

/-- A bus command inside an operation: with no bus fault the events of its transaction, in order, chip-select and
data/command left high, `upc` past its `5 + n` micro-ops; with the first bus fault at the `TX` of index `j` the events before
it, chip-select left asserted, data/command as the last drive left it, and BusFault taken at that `upc`; nothing else of the
block changes (R140, R166). -/
def Obligations.BusCommandTransaction : Prop :=
  ∀ (i : Instr) (r : Reg) (payload : List Byte) (s : State), i.busParts = some (r, payload) → s.fault = none →
    s.op ≠ none →
    ((∀ k, k = 2 ∨ 4 ≤ k ∧ k < 4 + payload.length → (s.moveAt k).txFault = false) →
      exec i s = .next { s with
        upc := s.upc + (5 + payload.length), csN := .high, dc := .high
        trace := s.trace ++ xactEvents (Config.b2040.addr r) payload
        moves := s.moves.drop (5 + payload.length), tick := s.tick + (5 + payload.length) }) ∧
    (∀ j, (j = 2 ∨ 4 ≤ j ∧ j < 4 + payload.length) →
      (∀ k, k < j → k = 2 ∨ 4 ≤ k → (s.moveAt k).txFault = false) → (s.moveAt j).txFault = true →
      exec i s = .next { s with
        upc := s.upc + j, csN := .low, dc := (if j = 2 then .low else .high)
        fault := some ⟨.busFault, s.upc + j⟩
        trace := s.trace ++ (xactEvents (Config.b2040.addr r) payload).take j ++ [.rsp (.err .busFault (s.upc + j))]
        moves := s.moves.drop (j + 1), tick := s.tick + (j + 1) })

/-- What no bus command changes, fault or not: `st`, `op`, `opnd`, the reset line, every byte of the framebuffer, and the host
port (header of 43_bus_commands.md). -/
def Obligations.BusCommandFrame : Prop :=
  ∀ (i : Instr) (s t : State), i.isHostOp = false → exec i s = .next t →
    t.st = s.st ∧ t.op = s.op ∧ t.opnd = s.opnd ∧ t.rstN = s.rstN ∧ (∀ a, memRead t.fb a = memRead s.fb a) ∧
    t.fb = s.fb ∧ t.refused = s.refused ∧ t.inbox = s.inbox

/-- The meaning of a bus command is what the machine does with it: where the micro-program in progress has the command's
transaction next, running the machine for at most its number of micro-ops gives the state the command gives. -/
def Obligations.BusCommandIsItsSteps : Prop :=
  ∀ (i : Instr) (s : State) (o : OpKind) (post : List MicroOp), i.isHostOp = false → s.fault = none →
    s.refused = false → s.op = some o →
    (mprog Config.b2040 o s.opnd).drop s.upc = commandOps Config.b2040 i ++ post →
    ∃ n, 1 ≤ n ∧ n ≤ (commandOps Config.b2040 i).length ∧ run n s = exec i s

/-! ## The machine as a whole -/

/-- The state after creation (R43). -/
def Obligations.ResetState : Prop :=
  State.reset.st = .uninitialized ∧ State.reset.op = none ∧ State.reset.opnd = .empty ∧ State.reset.upc = 0 ∧
  State.reset.fault = none ∧ State.reset.csN = .high ∧ State.reset.rstN = .high ∧ State.reset.dc = .low ∧
  State.reset.trace = [] ∧ State.reset.refused = false ∧
  ∀ a, memRead State.reset.fb a = Config.fbAtCreation a

/-- The invariant holds after creation. -/
def Obligations.InvAtReset : Prop := Inv State.reset

/-- Every step keeps the invariant: the canonical form of the framebuffer, (a) to (f) of R41 where there is no fault, and a
fault record that names the micro-op that faulted. -/
def Obligations.StepKeepsInv : Prop :=
  ∀ s t : State, Inv s → step s = .next t → Inv t

/-- The only transitions of `st` (R23). -/
def Obligations.OnlyTheseStTransitions : Prop :=
  ∀ s t : State, Inv s → step s = .next t → t.st ≠ s.st →
    (s.st = .uninitialized ∧ t.st = .resetting ∧ s.op = none ∧ t.op = some .reset) ∨
    (s.st = .resetting ∧ t.st = .initializing ∧ s.op = none ∧ t.op = some .init) ∨
    (s.st = .initializing ∧ t.st = .idle ∧ s.op = some .init ∧ t.op = none) ∨
    (s.st = .idle ∧ t.st = .refreshing ∧ s.op = none ∧ t.op = some .sendFrame) ∨
    (s.st = .refreshing ∧ t.st = .idle ∧ s.op = some .sendFrame ∧ t.op = none) ∨
    (s.st = .idle ∧ t.st = .poweredOff ∧ s.op = none ∧ t.op = none)

/-- How `upc` moves while an operation is in progress: by one with a completed micro-op; not at all in a hold at a busy wait
or at a fatal exception; back to 0 at completion (R25). -/
def Obligations.UpcMovesByOne : Prop :=
  ∀ (s t : State) (o : OpKind), s.op = some o → step s = .next t →
    (t.upc = s.upc + 1 ∧ t.op = some o ∧ t.fault = none) ∨
    (t.upc = s.upc ∧ t.op = some o ∧ t.trace = s.trace ∧ t.fault = none ∧
      (mprog Config.b2040 o s.opnd)[s.upc]? = some .waitBusy) ∨
    (t.upc = s.upc ∧ t.op = some o ∧ t.fault ≠ none) ∨
    (t.upc = 0 ∧ t.op = none ∧ (mprog Config.b2040 o s.opnd)[s.upc]? = none)

/-- Only FB.WRITE, FB.CLEAR, DA.PIXEL and DA.CLEARBUF write the framebuffer: no step changes it but the one that takes such a
request (R30). -/
def Obligations.FramebufferWritersOnly : Prop :=
  ∀ s t : State, step s = .next t → t.fb ≠ s.fb →
    s.op = none ∧ ∃ r rest i, s.inbox = r :: rest ∧ decodeRequest Config.b2040 r.word r.stream = .instr i ∧
      WritesFramebuffer i

/-- The only ways to a fault record, and the whole of what taking a fatal exception does: BusFault at a `TX` the panel answers
`busfault`, and, in a configuration that sets `BUSY_TIMEOUT`, ProtocolTimeout at a busy wait; the record and the response hold
`upc`, everything else of the block is frozen (R160, R162, R163, R166). This machine sets no `BUSY_TIMEOUT` (log 9), so its
steps take BusFault only. -/
def Obligations.FatalExceptionEntry : Prop :=
  (∀ s t : State, step s = .next t → t.fault ≠ none →
    ∃ o b, s.op = some o ∧ (mprog Config.b2040 o s.opnd)[s.upc]? = some (.tx b) ∧ s.move.txFault = true ∧
      t = { s with fault := some ⟨.busFault, s.upc⟩, trace := s.trace ++ [.rsp (.err .busFault s.upc)],
                   moves := s.moves.drop 1, tick := s.tick + 1 }) ∧
  (∀ (c : Config) (o : OpKind) (s : State), s.fault = none → (operationStep c o s).fault ≠ none →
    ∃ code : FatalCause,
      operationStep c o s = { s with fault := some ⟨code, s.upc⟩, trace := s.trace ++ [.rsp (.err code s.upc)],
                                     moves := s.moves.drop 1, tick := s.tick + 1 } ∧
      match code with
      | .busFault => (∃ b, (mprog c o s.opnd)[s.upc]? = some (.tx b)) ∧ s.move.txFault = true
      | .protocolTimeout => (mprog c o s.opnd)[s.upc]? = some .waitBusy ∧ s.move.busy = true ∧
          s.move.timeout = true ∧ c.busyTimeout ≠ none)

/-- The block reads the busy line at a busy wait and nowhere else: at any other step the outcome is the same whatever the line
is (R26, R164). -/
def Obligations.BusyReadAtWaitOnly : Prop :=
  ∀ (s : State) (mv : Move) (mvs : List Move) (b : Bool), s.moves = mv :: mvs →
    (s.program Config.b2040)[s.upc]? ≠ some .waitBusy →
    step { s with moves := { mv with busy := b } :: mvs } = step s

/-- Every `DELAY` event of a run lasts at least ten milliseconds (R131, R195). -/
def Obligations.DelaysAtLeastTenMs : Prop :=
  ∀ s t : State, DelaysLong s.trace → step s = .next t → DelaysLong t.trace

/-- What no host operation changes when its request is taken: the lines, the fault record, the mark and the host port, and it
emits no event the panel sees; the framebuffer operations leave the controller's registers alone, the controller operations
every byte of the framebuffer (R100 to R102, R110 to R112, R120, R130). For CT.OFF, that no line changes and that no event the
panel sees is emitted is the spec's own choice (D12, N10), which errs toward proving: the source names no bus sequence for the
transition and does not say that there is none. -/
def Obligations.HostOperationFrame : Prop :=
  ∀ (i : Instr) (s t : State), i.isHostOp = true → exec i s = .next t →
    t.csN = s.csN ∧ t.dc = s.dc ∧ t.rstN = s.rstN ∧ t.fault = s.fault ∧ t.refused = s.refused ∧ t.inbox = s.inbox ∧
    panelTrace t.trace = panelTrace s.trace ∧
    (WritesFramebuffer i → t.st = s.st ∧ t.op = s.op ∧ t.opnd = s.opnd ∧ t.upc = s.upc) ∧
    (∀ x y, i = .fbQuery x y → t.st = s.st ∧ t.op = s.op ∧ t.opnd = s.opnd ∧ t.upc = s.upc) ∧
    (¬ WritesFramebuffer i → ∀ a, memRead t.fb a = memRead s.fb a)

/-- A refused request marks the run for good and changes nothing else; a step never sets or clears the mark (R17, R29). -/
def Obligations.RefusalMarksTheRun : Prop :=
  (∀ (s : State) (r : Refusal), step s = .refused r → runStep s = { s with refused := true }) ∧
  (∀ s : State, s.refused = true → s.fault = none → step s = .refused .runRefused ∧ runStep s = s) ∧
  (∀ s t : State, step s = .next t → t.refused = s.refused)

/-- Responses as 32-bit words (R77). -/
def Obligations.ResponseWords : Prop :=
  Response.ok.word = 0x00000000#32 ∧
  (∀ b, (Response.bit b).word = 0x10000000#32 ||| (if b then 1#32 else 0#32)) ∧
  Response.unknown.word = 0x20000000#32 ∧
  (∀ (code : FatalCause) (info : Nat), info < 2 ^ 24 →
    ((Response.err code info).word).toNat =
      0xF * 2 ^ 28 + (match code with | .busFault => 2 | .protocolTimeout => 3) * 2 ^ 24 + info)

/-- A byte composed as R32 says, one documented value per sub-field, has every bit outside the sub-fields' masks zero. -/
def Obligations.ComposedReservedBitsZero : Prop :=
  ∀ (fields : List SubField) (p : Byte), Config.Composed fields p → p &&& ~~~Config.usedBits fields = 0#8

/-- A finished run stays as it is, and no held, faulted or refused state ends a run (R206). -/
def Obligations.FinalStates : Prop :=
  ∀ s : State,
    (Final s → step s = .next { s with moves := s.moves.drop 1, tick := s.tick + 1 }) ∧
    (Held s ∨ s.fault ≠ none ∨ s.refused = true → ¬ Final s)

/-- The ConfigFlags bytes CT.INIT sends, each at its `upc`: a valid payload, composed of a documented value of each sub-field
that R33 to R38 name for it, every bit outside the sub-fields zero, and the resolution sub-field of the PSR byte names the
geometry (R32 to R38, R84, R193, R202). So it is in this machine, and in every configuration that meets the constraints. -/
def Obligations.InitSendsDocumentedFlags : Prop :=
  ∀ (c : Config) (d : Operand), c = Config.b2040 ∨ c.Valid ∧ c.FlagsValid →
    (∀ p ∈ [(4, Reg.psr, [FlagName.panelResolution, .lutSource, .colorFormat, .scanDirection, .boosterEnable, .resetMode]),
        (10, .pwr, [.regulatorSelection]), (26, .btst, [.boosterTiming, .boosterStrength]),
        (27, .btst, [.boosterTiming, .boosterStrength]), (28, .btst, [.boosterTiming, .boosterStrength]),
        (34, .pfs, [.frameRate]), (40, .tse, [.temperatureSensorMode]), (58, .pll, [.pllFrequency])],
      ∃ b, (mprog c .init d)[p.1]? = some (.tx b) ∧ c.validPayload p.2.1 b = true ∧
        Config.Composed (p.2.2.map c.flags) b ∧
        (∀ n ∈ p.2.2, c.fieldOf n b ∈ (c.flags n).values) ∧
        b &&& ~~~Config.usedBits (p.2.2.map c.flags) = 0#8) ∧
    ∃ b, (mprog c .init d)[4]? = some (.tx b) ∧ c.resolution (c.fieldOf .panelResolution b) = (c.width, c.height)
end

