-- ==== Sys2Proof/Laws/Config.lean ====
section
/-! SUPPORT. The configuration of this machine meets the constraints of R193, its ConfigFlags bytes are composed as R32 says, and
the arithmetic of a valid geometry. -/

namespace Sys2Proof

/-- `FB_BYTES = WIDTH * ROWGROUPS` (R52). -/
theorem Config.Valid.fbBytes_eq {c : Config} (h : c.Valid) : c.fbBytes = c.width * c.rowGroups := by
  have hr := h.height_rows
  have : c.height = 8 * c.rowGroups := by unfold Config.rowGroups; omega
  unfold Config.fbBytes
  rw [this]
  rw [show c.width * (8 * c.rowGroups) = c.width * c.rowGroups * 8 by ring]
  simp

theorem Reg.index_inj {r r' : Reg} (h : r.index = r'.index) : r = r' := by
  cases r <;> cases r' <;> simp_all [Reg.index]

theorem Reg.index_lt (r : Reg) : r.index < 256 := by cases r <;> simp [Reg.index]

/-- The opcode bytes of this machine are pairwise distinct (R9). -/
theorem Config.b2040_addr_inj {r r' : Reg} (h : Config.b2040.addr r = Config.b2040.addr r') : r = r' := by
  have h1 := Config.addrPerm.injective h
  have h2 := congrArg BitVec.toNat h1
  simp only [BitVec.toNat_ofNat] at h2
  have := r.index_lt
  have := r'.index_lt
  exact Reg.index_inj (by omega)

/-- This machine's configuration meets the constraints on the parameters (R193). -/
theorem Config.b2040_valid : Config.b2040.Valid where
  width_pos := by decide
  width_max := by decide
  height_min := by decide
  height_max := by decide
  height_rows := by decide
  idx_range := by
    intro x g hx hg
    simp only [Config.b2040, Config.rowGroups, Config.fbBytes, Config.columnMajor] at *
    omega
  idx_inj := by
    intro x g x' g' hx hg hx' hg' h
    simp only [Config.b2040, Config.rowGroups, Config.columnMajor] at *
    omega
  idx_surj := by
    intro i hi
    refine ⟨i / 37, i % 37, ?_, ?_, ?_⟩ <;>
    · simp only [Config.b2040, Config.rowGroups, Config.fbBytes, Config.columnMajor] at *
      omega
  bit_off := rfl
  bit_on := by decide
  addr_inj := fun _ _ => Config.b2040_addr_inj
  payload_length := by
    intro r hr
    fin_cases hr <;> rfl
  booster_equal := ⟨_, rfl⟩
  rst_low := Nat.le_add_right _ _
  rst_settle := Nat.le_add_right _ _

/-! ## ConfigFlags bytes (R32, R84) -/

/-- A combination of values inside their masks is composed. -/
theorem Config.composed_of_mem {fields : List SubField} {b : Byte}
    (h : ∀ f ∈ fields, ∀ v ∈ f.values, v &&& ~~~f.mask = 0#8) (hb : b ∈ Config.combinations fields) :
    Config.Composed fields b := by
  induction fields generalizing b with
  | nil =>
    rw [Config.combinations, List.mem_singleton] at hb
    exact hb ▸ .nil
  | cons f fs ih =>
    simp only [Config.combinations, List.mem_flatMap, List.mem_map] at hb
    obtain ⟨v, hv, p, hp, rfl⟩ := hb
    exact .cons hv (h f List.mem_cons_self v hv) (ih (fun g hg => h g (List.mem_cons_of_mem _ hg)) hp)

/-- The OR of the chosen values is a combination. -/
theorem Config.chosen_mem_combinations (fields : List FlagField) :
    (fields.map FlagField.chosen).foldr (· ||| ·) 0#8 ∈ Config.combinations (fields.map FlagField.toSubField) := by
  induction fields with
  | nil => exact List.mem_cons_self
  | cons f fs ih =>
    exact List.mem_flatMap.2 ⟨f.chosen, List.mem_append_right _ List.mem_cons_self, List.mem_map.2 ⟨_, ih, rfl⟩⟩

/-- The values of this machine's sub-fields are inside their masks (R32). -/
theorem Config.freeFlags_inside (n : FlagName) : ∀ v ∈ (Config.freeFlags n).values, v &&& ~~~(Config.freeFlags n).mask = 0#8 := by
  have hcut : ∀ m x : Byte, (x &&& m) &&& ~~~m = 0#8 := fun m x => by
    ext i
    simp
  intro v hv
  simp only [Config.freeFlags, Config.flagField, FlagField.toSubField, FlagField.restrict, List.mem_append, List.mem_cons,
    List.mem_map] at hv
  obtain ⟨x, -, rfl⟩ | rfl | ⟨x, -, rfl⟩ := hv <;> exact hcut _ _

/-- The ConfigFlags bytes of this machine's payloads. -/
theorem Config.b2040_flagByte {rj : Reg × Nat} (h : rj ∈ Config.flagBytes) :
    (Config.b2040.payload rj.1)[rj.2]? = some (Config.flagByte rj.1) := by
  revert rj
  simp only [Config.flagBytes, List.forall_mem_cons]
  exact ⟨rfl, rfl, rfl, rfl, rfl, rfl, rfl, rfl, fun _ h => absurd h List.not_mem_nil⟩

/-- The bits before a sub-field have the mask of each sub-field before it. -/
theorem Config.mask_bitsBefore {m n : FlagName} (h : m ∈ (FlagName.ofReg n.reg).takeWhile (· != n)) :
    (Config.freeFields m).mask &&& ~~~Config.bitsBefore n = 0#8 := by
  unfold Config.bitsBefore
  generalize (FlagName.ofReg n.reg).takeWhile (· != n) = before at h ⊢
  induction before with
  | nil => cases h
  | cons k ks ih =>
    simp only [List.map_cons, List.foldr_cons]
    rcases List.mem_cons.1 h with rfl | h
    · ext i
      simp
      exact fun h1 h2 => absurd h1 (by simp [h2])
    · ext i hi
      have := congrArg (·.getLsbD i) (ih h)
      simp [BitVec.getLsbD_eq_getElem hi] at this ⊢
      exact fun h1 _ => this h1

/-- Two sub-fields of this machine of which the first comes before the second in their byte are disjoint (R32). -/
theorem Config.freeFlags_disjoint {m n : FlagName} (h : m ∈ (FlagName.ofReg n.reg).takeWhile (· != n)) :
    (Config.freeFlags m).mask &&& (Config.freeFlags n).mask = 0#8 := by
  simp only [Config.freeFlags, Config.flagField, FlagField.toSubField, FlagField.restrict]
  ext i hi
  have := congrArg (·.getLsbD i) (Config.mask_bitsBefore h)
  simp [BitVec.getLsbD_eq_getElem hi] at this ⊢
  exact fun h1 _ _ => this h1

/-- The sub-fields of a byte stand in their order, all of that byte's register. -/
theorem FlagName.ofReg_ordered (r : Reg) :
    (FlagName.ofReg r).Pairwise fun m n => m ∈ (FlagName.ofReg n.reg).takeWhile (· != n) := by
  cases r <;> decide

/-- This machine's ConfigFlags parameters are as R32 and R193 ask: disjoint sub-fields, valid bytes documented combinations,
CT.INIT's bytes valid, and the resolution of its PSR byte the geometry (R202). -/
theorem Config.b2040_flagsValid : Config.b2040.FlagsValid where
  disjoint := fun r => List.pairwise_map.2 ((FlagName.ofReg_ordered r).imp Config.freeFlags_disjoint)
  documented := fun rj _ b hb => by
    refine Config.composed_of_mem (fun f hf => ?_) (List.contains_iff_mem.1 (Bool.and_eq_true_iff.1 hb).1)
    obtain ⟨n, -, rfl⟩ := List.mem_map.1 hf
    exact Config.freeFlags_inside n
  valid := fun rj h b hb => by
    rw [Config.b2040_flagByte h, Option.some.injEq] at hb
    subst hb
    have h1 := Config.chosen_mem_combinations ((FlagName.ofReg rj.1).map Config.flagField)
    rw [List.map_map, List.map_map] at h1
    exact Bool.and_eq_true_iff.2 ⟨List.contains_iff_mem.2 h1, Bool.or_eq_true_iff.2 (.inl (beq_self_eq_true _))⟩
  resolution := fun b hb => by
    cases hb
    exact if_pos rfl

end Sys2Proof
end

