-- ==== Sys2Proof/Laws/Encoding.lean ====
section
/-! SUPPORT. The fields of an encoded request word, a request word from its fields, and the register of an opcode byte. -/

namespace Sys2Proof

open Sys2Proof.Safety

theorem Encoding.ext_getLsbD {n : Nat} (a b : BitVec n) (h : ∀ i, i < n → a.getLsbD i = b.getLsbD i) : a = b :=
  BitVec.eq_of_getLsbD_eq fun i hi => h i hi

/-! ## Fields of an encoded word (R70, R74) -/
theorem hopField_wordH0 (hop : BitVec 4) : hopField (wordH0 hop) = hop := by
  refine Encoding.ext_getLsbD _ _ fun i hi => ?_
  simp only [hopField, wordH0, BitVec.getLsbD_extractLsb', BitVec.getLsbD_append, hi, decide_true, Bool.true_and]
  rw [if_neg (by omega)]; congr 1; omega

theorem reservedH0_wordH0 (hop : BitVec 4) : reservedH0 (wordH0 hop) = true := by
  simp only [reservedH0, beq_iff_eq]
  refine Encoding.ext_getLsbD _ _ fun i hi => ?_
  simp only [wordH0, BitVec.getLsbD_extractLsb', BitVec.getLsbD_append, hi, decide_true, Bool.true_and]
  rw [if_pos (by omega)]; simp

theorem hopField_wordHP (hop : BitVec 4) (v x y) : hopField (wordHP hop v x y) = hop := by
  refine Encoding.ext_getLsbD _ _ fun i hi => ?_
  simp only [hopField, wordHP, BitVec.getLsbD_extractLsb', BitVec.getLsbD_append, hi, decide_true, Bool.true_and]
  rw [if_neg (by omega), if_neg (by omega), if_neg (by omega), if_neg (by omega)]; congr 1; omega

theorem reservedHP_wordHP (hop : BitVec 4) (v x y) : reservedHP (wordHP hop v x y) = true := by
  simp only [reservedHP, beq_iff_eq]
  refine Encoding.ext_getLsbD _ _ fun i hi => ?_
  simp only [wordHP, BitVec.getLsbD_extractLsb', BitVec.getLsbD_append, hi, decide_true, Bool.true_and]
  rw [if_neg (by omega), if_neg (by omega), if_neg (by omega), if_pos (by omega)]; simp

theorem reservedHC_wordHP (hop : BitVec 4) (x y) : reservedHC (wordHP hop false x y) = true := by
  simp only [reservedHC, beq_iff_eq]
  refine Encoding.ext_getLsbD _ _ fun i hi => ?_
  simp only [wordHP, BitVec.getLsbD_extractLsb', BitVec.getLsbD_append, hi, decide_true, Bool.true_and]
  rw [if_neg (by omega), if_neg (by omega)]
  split
  · simp 
  · rw [if_pos (by omega)]; simp

theorem vField_wordHP (hop : BitVec 4) (v x y) : vField (wordHP hop v x y) = v := by
  simp only [vField, wordHP, BitVec.getLsbD_append]
  rw [if_neg (by omega), if_neg (by omega), if_pos (by omega)]; cases v <;> rfl

theorem toInt_ofInt_coord {x : Int} (h : coordOk x = true) : (BitVec.ofInt 12 x).toInt = x := by
  simp only [coordOk, decide_eq_true_eq] at h
  rw [BitVec.toInt_ofInt]
  rw [Int.bmod_def]; omega

theorem xField_wordHP (hop : BitVec 4) (v x y) (h : coordOk x = true) : xField (wordHP hop v x y) = x := by
  have : (wordHP hop v x y).extractLsb' 12 12 = BitVec.ofInt 12 x := by
    refine Encoding.ext_getLsbD _ _ fun i hi => ?_
    simp only [wordHP, BitVec.getLsbD_extractLsb', BitVec.getLsbD_append, hi, decide_true, Bool.true_and]
    rw [if_neg (by omega), if_pos (by omega)]; congr 1; omega
  rw [xField, this, toInt_ofInt_coord h]

theorem yField_wordHP (hop : BitVec 4) (v x y) (h : coordOk y = true) : yField (wordHP hop v x y) = y := by
  have : (wordHP hop v x y).extractLsb' 0 12 = BitVec.ofInt 12 y := by
    refine Encoding.ext_getLsbD _ _ fun i hi => ?_
    simp only [wordHP, BitVec.getLsbD_extractLsb', BitVec.getLsbD_append, hi, decide_true, Bool.true_and]
    rw [if_pos (by omega)]; congr 1; omega
  rw [yField, this, toInt_ofInt_coord h]

theorem hopField_wordHC (hop : BitVec 4) (r n) : hopField (wordHC hop r n) = hop := by
  refine Encoding.ext_getLsbD _ _ fun i hi => ?_
  simp only [hopField, wordHC, BitVec.getLsbD_extractLsb', BitVec.getLsbD_append, hi, decide_true, Bool.true_and]
  rw [if_neg (by omega), if_neg (by omega), if_neg (by omega)]; congr 1; omega

theorem reservedHC_wordHC (hop : BitVec 4) (r n) : reservedHC (wordHC hop r n) = true := by
  simp only [reservedHC, beq_iff_eq]
  refine Encoding.ext_getLsbD _ _ fun i hi => ?_
  simp only [wordHC, BitVec.getLsbD_extractLsb', BitVec.getLsbD_append, hi, decide_true, Bool.true_and]
  rw [if_neg (by omega), if_neg (by omega), if_pos (by omega)]; simp

theorem regField_wordHC (hop : BitVec 4) (r n) : regField (wordHC hop r n) = r := by
  refine Encoding.ext_getLsbD _ _ fun i hi => ?_
  simp only [regField, wordHC, BitVec.getLsbD_extractLsb', BitVec.getLsbD_append, hi, decide_true, Bool.true_and]
  rw [if_neg (by omega), if_pos (by omega)]; congr 1; omega

theorem lengthField_wordHC (hop : BitVec 4) (r n) (h : n < 65536) : lengthField (wordHC hop r n) = n := by
  have : (wordHC hop r n).extractLsb' 0 16 = BitVec.ofNat 16 n := by
    refine Encoding.ext_getLsbD _ _ fun i hi => ?_
    simp only [wordHC, BitVec.getLsbD_extractLsb', BitVec.getLsbD_append, hi, decide_true, Bool.true_and]
    rw [if_pos (by omega)]; congr 1; omega
  rw [lengthField, this]; simp; omega

/-! ## A word from its fields -/
theorem Encoding.getLsbD_of_extract {n} (w : BitVec n) (s l : Nat) (v : BitVec l) (h : w.extractLsb' s l = v) (i : Nat) (hi : i < l) : w.getLsbD (s+i) = v.getLsbD i := by
  rw [← h]; simp [hi]

theorem wordH0_fields (w : Word) (h : reservedH0 w = true) : wordH0 (hopField w) = w := by
  simp only [reservedH0, beq_iff_eq] at h
  refine Encoding.ext_getLsbD _ _ fun i hi => ?_
  simp only [wordH0, hopField, BitVec.getLsbD_append, BitVec.getLsbD_extractLsb']
  split
  · rename_i h1
    have := Encoding.getLsbD_of_extract w 0 28 _ h i h1
    simp at this; simp [this]
  · have : i - 28 < 4 := by omega
    simp only [this, decide_true, Bool.true_and]; congr 1; omega

theorem wordHP_fields (w : Word) (h : reservedHP w = true) : wordHP (hopField w) (vField w) (xField w) (yField w) = w := by
  simp only [reservedHP, beq_iff_eq] at h
  refine Encoding.ext_getLsbD _ _ fun i hi => ?_
  simp only [wordHP, hopField, vField, xField, yField, BitVec.ofInt_toInt, BitVec.getLsbD_append, BitVec.getLsbD_extractLsb']
  split
  · rename_i h1; simp [h1]
  · split
    · rename_i h1 h2; simp only [h2, decide_true, Bool.true_and]; congr 1; omega
    · split
      · have : i = 24 := by omega
        subst this; cases w.getLsbD 24 <;> rfl
      · split
        · rename_i h1 h2 h3 h4
          have := Encoding.getLsbD_of_extract w 25 3 _ h (i - 12 - 12 - 1) (by omega)
          have e : 25 + (i - 12 - 12 - 1) = i := by omega
          rw [e] at this; rw [this]
        · have : i - 12 - 12 - 1 - 3 < 4 := by omega
          simp only [this, decide_true, Bool.true_and]; congr 1; omega

theorem wordHC_fields (w : Word) (h : reservedHC w = true) : wordHC (hopField w) (regField w) (lengthField w) = w := by
  simp only [reservedHC, beq_iff_eq] at h
  refine Encoding.ext_getLsbD _ _ fun i hi => ?_
  simp only [wordHC, hopField, regField, lengthField, BitVec.ofNat_toNat, BitVec.setWidth_eq, BitVec.getLsbD_append, BitVec.getLsbD_extractLsb']
  split
  · rename_i h1; simp [h1]
  · split
    · rename_i h1 h2; simp only [h2, decide_true, Bool.true_and]; congr 1; omega
    · split
      · rename_i h1 h2 h3
        have := Encoding.getLsbD_of_extract w 24 4 _ h (i - 16 - 8) (by omega)
        have e : 24 + (i - 16 - 8) = i := by omega
        rw [e] at this; rw [this]
      · have : i - 16 - 8 - 4 < 4 := by omega
        simp only [this, decide_true, Bool.true_and]; congr 1; omega

theorem reservedHC_iff_wordHP (w : Word) (h : reservedHC w = true) : reservedHP w = true ∧ vField w = false := by
  simp only [reservedHC, beq_iff_eq] at h
  constructor
  · simp only [reservedHP, beq_iff_eq]
    refine Encoding.ext_getLsbD _ _ fun i hi => ?_
    have := Encoding.getLsbD_of_extract w 24 4 _ h (i+1) (by omega)
    simp only [BitVec.getLsbD_extractLsb', hi, decide_true, Bool.true_and]
    have e : 24 + (i+1) = 25 + i := by omega
    rw [e] at this; rw [this]; simp
  · have := Encoding.getLsbD_of_extract w 24 4 _ h 0 (by omega); simpa [vField] using this

/-! ## Opcode bytes (R9, R80) -/

/-- The register of an opcode byte is the one that has it. -/
theorem regOfOpcode_addr {c : Config} (hc : c.Valid) (r : Reg) : regOfOpcode c (c.addr r) = some r := by
  unfold regOfOpcode
  have key : ∀ l : List Reg, r ∈ l → l.find? (fun r' => c.addr r' == c.addr r) = some r := by
    intro l
    induction l with
    | nil => simp
    | cons a l ih =>
      intro h
      rw [List.find?_cons]
      by_cases hr : c.addr a = c.addr r
      · have := hc.addr_inj _ _ hr
        subst this; simp
      · have hne : a ≠ r := fun h => hr (by rw [h])
        have hb : (c.addr a == c.addr r) = false := by simpa using hr
        rw [hb]
        apply ih
        rcases List.mem_cons.1 h with h | h
        · exact absurd h.symm hne
        · exact h
  apply key
  cases r <;> decide

/-! ## The patterns of R73 -/
theorem Encoding.mask_top7 (w : Word) : w &&& 0xFE000000#32 = (w >>> 25) <<< 25 := by
  refine Encoding.ext_getLsbD _ _ fun i hi => ?_
  interval_cases i <;> simp

theorem Encoding.mask_top8 (w : Word) : w &&& 0xFF000000#32 = (w >>> 24) <<< 24 := by
  refine Encoding.ext_getLsbD _ _ fun i hi => ?_
  interval_cases i <;> simp

theorem Encoding.mask_all (w : Word) : w &&& 0xFFFFFFFF#32 = w := by
  refine Encoding.ext_getLsbD _ _ fun i hi => ?_
  interval_cases i <;> simp

theorem Encoding.hop_toNat (w : Word) : (hopField w).toNat = w.toNat / 2^28 := by
  simp [hopField, Nat.shiftRight_eq_div_pow]; omega

theorem Encoding.reservedHP_toNat (w : Word) : reservedHP w = true ↔ w.toNat / 2^25 % 8 = 0 := by
  simp [reservedHP, BitVec.toNat_eq, Nat.shiftRight_eq_div_pow]

theorem Encoding.reservedHC_toNat (w : Word) : reservedHC w = true ↔ w.toNat / 2^24 % 16 = 0 := by
  simp [reservedHC, BitVec.toNat_eq, Nat.shiftRight_eq_div_pow]

theorem Encoding.reservedH0_toNat (w : Word) : reservedH0 w = true ↔ w.toNat % 2^28 = 0 := by
  simp [reservedH0, BitVec.toNat_eq]

/-- The patterns say what the format of each `hop` says (R70, R73). -/
theorem namesOperation_iff (w : Word) : NamesOperation w ↔ 
   ((hopField w).toNat = 1 ∧ reservedHP w = true) ∨ ((hopField w).toNat = 3 ∧ reservedHC w = true) ∨ ((hopField w).toNat = 4 ∧ reservedHP w = true) ∨ ((hopField w).toNat = 11 ∧ reservedHC w = true) ∨
   (((hopField w).toNat =2 ∨ (hopField w).toNat =5 ∨ (hopField w).toNat =6∨ (hopField w).toNat =8∨ (hopField w).toNat =9∨ (hopField w).toNat =10∨ (hopField w).toNat =12) ∧ reservedH0 w = true) := by
  have hw := w.isLt
  simp only [NamesOperation, requestPatterns, List.mem_cons, List.mem_nil_iff, or_false, exists_eq_or_imp, exists_eq_left, Encoding.mask_top7, Encoding.mask_top8, Encoding.mask_all, Encoding.hop_toNat, Encoding.reservedHP_toNat, Encoding.reservedHC_toNat, Encoding.reservedH0_toNat]
  simp only [BitVec.toNat_eq, BitVec.toNat_shiftLeft, BitVec.toNat_ushiftRight, Nat.shiftRight_eq_div_pow, Nat.shiftLeft_eq, BitVec.toNat_ofNat]
  omega

end Sys2Proof
end

