-- ==== Sys2Proof/Laws/Memory.lean ====
section
/-! SUPPORT. The framebuffer store: read after write, the canonical form, and the pixel operations over it. -/

namespace Sys2Proof.Machine

open Sys2Proof

/-! ## Reading and writing bytes -/

/-- What a write does to the written bytes, on any list. -/
theorem Memory.get?_memWrite (m : Memory) (i j : Nat) (v : Byte) :
    Memory.get? (memWrite m i v) j = if j = i then some v else Memory.get? m j := by
  induction m with
  | nil => simp [memWrite, Memory.get?]
  | cons x m ih =>
    obtain ⟨a, w⟩ := x
    simp only [memWrite]
    split
    · simp [Memory.get?]
    · split
      · subst_vars
        simp only [Memory.get?]
        split <;> simp_all
      · simp only [Memory.get?, ih]
        split <;> split <;> simp_all

/-- A read after a write to the same place gives the value written; a write leaves every other place alone. -/
theorem memRead_memWrite (m : Memory) (i j : Nat) (v : Byte) :
    memRead (memWrite m i v) j = if j = i then v else memRead m j := by
  simp only [memRead, Memory.get?_memWrite]
  split <;> rfl

@[simp] theorem memRead_memWrite_same (m : Memory) (i : Nat) (v : Byte) : memRead (memWrite m i v) i = v := by
  simp [memRead_memWrite]

theorem memRead_memWrite_ne {i j : Nat} (h : j ≠ i) (m : Memory) (v : Byte) :
    memRead (memWrite m i v) j = memRead m j := by
  simp [memRead_memWrite, h]

/-- The indices of a store after a write. -/
theorem mem_keys_memWrite {m : Memory} {i a : Nat} {v : Byte} :
    a ∈ (memWrite m i v).map Prod.fst ↔ a = i ∨ a ∈ m.map Prod.fst := by
  induction m with
  | nil => simp [memWrite]
  | cons x m ih =>
    obtain ⟨b, w⟩ := x
    simp only [memWrite]
    split
    · simp
    · split
      · simp_all
      · simp only [List.map_cons, List.mem_cons, ih]
        tauto

/-- A write keeps the canonical form. -/
theorem Memory.wf_memWrite {c : Config} {m : Memory} {i : Nat} (v : Byte) (h : m.wf c) (hi : i < c.fbBytes) :
    Memory.wf c (memWrite m i v) := by
  refine ⟨?_, fun a ha => ?_⟩
  · have hp := h.1
    clear h hi
    induction m with
    | nil => simp [memWrite]
    | cons x m ih =>
      obtain ⟨b, w⟩ := x
      rw [List.map_cons, List.pairwise_cons] at hp
      simp only [memWrite]
      split
      · rename_i hlt
        simp only [List.map_cons, List.pairwise_cons, List.mem_cons]
        refine ⟨fun a ha => ?_, hp⟩
        rcases ha with rfl | ha
        · exact hlt
        · exact lt_trans hlt (hp.1 a ha)
      · split
        · subst_vars
          simpa using hp
        · rename_i h1 h2
          simp only [List.map_cons, List.pairwise_cons]
          refine ⟨fun a ha => ?_, ih hp.2⟩
          rcases mem_keys_memWrite.1 ha with rfl | ha
          · omega
          · exact hp.1 a ha
  · rcases mem_keys_memWrite.1 ha with rfl | ha
    · exact hi
    · exact h.2 a ha

theorem memZero_keys (c : Config) : (memZero c).map Prod.fst = List.range c.fbBytes := by
  simp [memZero, Function.comp_def]

/-- The cleared store has the canonical form. -/
theorem Memory.wf_memZero (c : Config) : Memory.wf c (memZero c) := by
  rw [Memory.wf, memZero_keys]
  exact ⟨List.pairwise_lt_range, fun a ha => List.mem_range.1 ha⟩

theorem Memory.get?_map_zero (l : List Nat) (i : Nat) :
    Memory.get? (l.map fun a => (a, 0#8)) i = if i ∈ l then some 0#8 else none := by
  induction l with
  | nil => simp [Memory.get?]
  | cons a l ih =>
    simp only [List.map_cons, Memory.get?, ih, List.mem_cons]
    split <;> simp_all

/-- Every byte of the cleared store reads zero (R101). -/
theorem memRead_memZero {c : Config} {i : Nat} (h : i < c.fbBytes) : memRead (memZero c) i = 0#8 := by
  simp [memRead, memZero, Memory.get?_map_zero, h]

@[simp] theorem memFrame_length (c : Config) (m : Memory) : (memFrame c m).length = c.fbBytes := by
  simp [memFrame]

/-- Byte `j` of the frame is `fb[j]` (R111). -/
theorem memFrame_getElem? {c : Config} (m : Memory) {j : Nat} (h : j < c.fbBytes) :
    (memFrame c m)[j]? = some (memRead m j) := by
  simp [memFrame, h]

/-- Two writes to one place leave the later value. -/
theorem memWrite_memWrite_same (m : Memory) (i : Nat) (v w : Byte) :
    memWrite (memWrite m i v) i w = memWrite m i w := by
  induction m with
  | nil => simp [memWrite]
  | cons x m ih =>
    obtain ⟨a, u⟩ := x
    simp only [memWrite]
    by_cases h1 : i < a
    · simp [h1, memWrite]
    · by_cases h2 : i = a
      · simp [h2, memWrite]
      · simp [h1, h2, memWrite, ih]

/-- Writes to two places commute, as data. -/
theorem memWrite_comm (m : Memory) {i j : Nat} (h : i ≠ j) (v w : Byte) :
    memWrite (memWrite m i v) j w = memWrite (memWrite m j w) i v := by
  induction m with
  | nil =>
    by_cases h1 : j < i
    · have h2 : ¬ i < j := by omega
      simp [memWrite, h1, h2, h]
    · have h2 : i < j := by omega
      simp [memWrite, h1, h2, Ne.symm h]
  | cons x m ih =>
    obtain ⟨a, u⟩ := x
    simp only [memWrite]
    rcases lt_trichotomy i a with hi | hi | hi <;> rcases lt_trichotomy j a with hj | hj | hj
    · rcases lt_or_gt_of_ne h with hij | hij
      · simp [memWrite, hi, hj, hij, Ne.symm h, not_lt_of_gt hij]
      · simp [memWrite, hi, hj, hij, h, not_lt_of_gt hij]
    · subst hj
      simp [memWrite, hi, Nat.ne_of_gt hi, not_lt_of_gt hi]
    · have : i < j := by omega
      simp [memWrite, hi, not_lt_of_gt hj, Nat.ne_of_gt hj, not_lt_of_gt this, Ne.symm h]
    · subst hi
      simp [memWrite, hj, Nat.ne_of_gt hj, not_lt_of_gt hj]
    · exact absurd (hi.trans hj.symm) h
    · subst hi
      simp [memWrite, not_lt_of_gt hj, Nat.ne_of_gt hj]
    · have : j < i := by omega
      simp [memWrite, hj, not_lt_of_gt hi, Nat.ne_of_gt hi, not_lt_of_gt this, h]
    · subst hj
      simp [memWrite, not_lt_of_gt hi, Nat.ne_of_gt hi]
    · simp [memWrite, not_lt_of_gt hi, Nat.ne_of_gt hi, not_lt_of_gt hj, Nat.ne_of_gt hj, ih]

/-! ## Bits and pixels -/

theorem pixelBit_lt (y : Int) : pixelBit y < 8 := by unfold pixelBit; omega

/-- `setbit` sets bit `k` and no other (R13). -/
theorem getLsbD_setBit (v : Byte) {k : Nat} (hk : k < 8) (b : Bool) (j : Nat) (hj : j < 8) :
    (setBit v k b).getLsbD j = if j = k then b else v.getLsbD j := by
  unfold setBit
  cases b <;> by_cases h : j = k
  · subst h
    simp [hj]
  · by_cases hlt : j < k
    · simp [hj, hlt, h]
    · have : j - k ≠ 0 := by omega
      simp [hj, hlt, h, this]
  · subst h
    simp [hj]
  · by_cases hlt : j < k
    · simp [hlt, h]
    · have : j - k ≠ 0 := by omega
      simp [hj, hlt, h, this]

theorem inBounds_iff {c : Config} {x y : Int} :
    inBounds c x y = true ↔ 0 ≤ x ∧ x < c.width ∧ 0 ≤ y ∧ y < c.height := by
  simp [inBounds]

/-- The byte of an in-bounds pixel is one of the framebuffer (R51, R66). -/
theorem pixelByte_lt {c : Config} (hc : c.Valid) {x y : Int} (h : inBounds c x y = true) :
    pixelByte c x y < c.fbBytes := by
  rw [inBounds_iff] at h
  have := hc.height_rows
  apply hc.idx_range
  · omega
  · unfold Config.rowGroups; omega

/-- Two in-bounds pixels with the same byte and bit are the same pixel (R53). -/
theorem pixel_inj {c : Config} (hc : c.Valid) {x y x' y' : Int} (h : inBounds c x y = true)
    (h' : inBounds c x' y' = true) (hi : pixelByte c x y = pixelByte c x' y') (hk : pixelBit y = pixelBit y') :
    x = x' ∧ y = y' := by
  rw [inBounds_iff] at h h'
  have hr := hc.height_rows
  have := hc.idx_inj x.toNat (y.toNat / 8) x'.toNat (y'.toNat / 8) (by omega) (by unfold Config.rowGroups; omega)
    (by omega) (by unfold Config.rowGroups; omega) hi
  unfold pixelBit at hk
  omega

/-- A pixel write changes the pixel written and no other (R103 (a)). -/
theorem readPixel_writePixel {c : Config} (hc : c.Valid) (m : Memory) {x y x' y' : Int} (b : Bool)
    (h : inBounds c x y = true) (h' : inBounds c x' y' = true) :
    readPixel c (writePixel c m x y b) x' y' = if x' = x ∧ y' = y then b else readPixel c m x' y' := by
  unfold readPixel writePixel
  rw [memRead_memWrite]
  by_cases hi : pixelByte c x' y' = pixelByte c x y
  · rw [if_pos hi, getLsbD_setBit _ (pixelBit_lt y) _ _ (pixelBit_lt y')]
    by_cases hk : pixelBit y' = pixelBit y
    · have := pixel_inj hc h' h hi hk
      simp [this]
    · have : ¬ (x' = x ∧ y' = y) := by rintro ⟨_, rfl⟩; exact hk rfl
      rw [if_neg hk, if_neg this, hi]
  · have : ¬ (x' = x ∧ y' = y) := by rintro ⟨rfl, rfl⟩; exact hi rfl
    rw [if_neg hi, if_neg this]

/-- A pixel write leaves every other byte alone (R55). -/
theorem memRead_writePixel_ne {c : Config} {x y : Int} {i : Nat} (h : i ≠ pixelByte c x y) (m : Memory) (b : Bool) :
    memRead (writePixel c m x y b) i = memRead m i :=
  memRead_memWrite_ne h m _

/-- A pixel write keeps the canonical form. -/
theorem Memory.wf_writePixel {c : Config} (hc : c.Valid) {m : Memory} (hm : m.wf c) {x y : Int}
    (h : inBounds c x y = true) (b : Bool) : Memory.wf c (writePixel c m x y b) :=
  Memory.wf_memWrite _ hm (pixelByte_lt hc h)

end Sys2Proof.Machine
end

