-- ==== Sys2Proof/Laws/State.lean ====
section
/-! SUPPORT. What each update of the state does to each field, one lemma per field per update. -/

namespace Sys2Proof.Machine

variable (s : State)

@[simp] theorem State.elapse_st (n : Nat) : (s.elapse n).st = s.st := rfl
@[simp] theorem State.elapse_op (n : Nat) : (s.elapse n).op = s.op := rfl
@[simp] theorem State.elapse_opnd (n : Nat) : (s.elapse n).opnd = s.opnd := rfl
@[simp] theorem State.elapse_upc (n : Nat) : (s.elapse n).upc = s.upc := rfl
@[simp] theorem State.elapse_csN (n : Nat) : (s.elapse n).csN = s.csN := rfl
@[simp] theorem State.elapse_dc (n : Nat) : (s.elapse n).dc = s.dc := rfl
@[simp] theorem State.elapse_rstN (n : Nat) : (s.elapse n).rstN = s.rstN := rfl
@[simp] theorem State.elapse_fault (n : Nat) : (s.elapse n).fault = s.fault := rfl
@[simp] theorem State.elapse_fb (n : Nat) : (s.elapse n).fb = s.fb := rfl
@[simp] theorem State.elapse_trace (n : Nat) : (s.elapse n).trace = s.trace := rfl
@[simp] theorem State.elapse_refused (n : Nat) : (s.elapse n).refused = s.refused := rfl
@[simp] theorem State.elapse_inbox (n : Nat) : (s.elapse n).inbox = s.inbox := rfl
@[simp] theorem State.elapse_moves (n : Nat) : (s.elapse n).moves = s.moves.drop n := rfl
@[simp] theorem State.elapse_tick (n : Nat) : (s.elapse n).tick = s.tick + n := rfl

@[simp] theorem State.emit_st (e : Event) : (s.emit e).st = s.st := rfl
@[simp] theorem State.emit_op (e : Event) : (s.emit e).op = s.op := rfl
@[simp] theorem State.emit_opnd (e : Event) : (s.emit e).opnd = s.opnd := rfl
@[simp] theorem State.emit_upc (e : Event) : (s.emit e).upc = s.upc := rfl
@[simp] theorem State.emit_csN (e : Event) : (s.emit e).csN = s.csN := rfl
@[simp] theorem State.emit_dc (e : Event) : (s.emit e).dc = s.dc := rfl
@[simp] theorem State.emit_rstN (e : Event) : (s.emit e).rstN = s.rstN := rfl
@[simp] theorem State.emit_fault (e : Event) : (s.emit e).fault = s.fault := rfl
@[simp] theorem State.emit_fb (e : Event) : (s.emit e).fb = s.fb := rfl
@[simp] theorem State.emit_trace (e : Event) : (s.emit e).trace = s.trace ++ [e] := rfl
@[simp] theorem State.emit_refused (e : Event) : (s.emit e).refused = s.refused := rfl
@[simp] theorem State.emit_inbox (e : Event) : (s.emit e).inbox = s.inbox := rfl
@[simp] theorem State.emit_moves (e : Event) : (s.emit e).moves = s.moves := rfl
@[simp] theorem State.emit_tick (e : Event) : (s.emit e).tick = s.tick := rfl

@[simp] theorem State.respond_st (r : Response) : (s.respond r).st = s.st := rfl
@[simp] theorem State.respond_op (r : Response) : (s.respond r).op = s.op := rfl
@[simp] theorem State.respond_opnd (r : Response) : (s.respond r).opnd = s.opnd := rfl
@[simp] theorem State.respond_upc (r : Response) : (s.respond r).upc = s.upc := rfl
@[simp] theorem State.respond_csN (r : Response) : (s.respond r).csN = s.csN := rfl
@[simp] theorem State.respond_dc (r : Response) : (s.respond r).dc = s.dc := rfl
@[simp] theorem State.respond_rstN (r : Response) : (s.respond r).rstN = s.rstN := rfl
@[simp] theorem State.respond_fault (r : Response) : (s.respond r).fault = s.fault := rfl
@[simp] theorem State.respond_fb (r : Response) : (s.respond r).fb = s.fb := rfl
@[simp] theorem State.respond_trace (r : Response) : (s.respond r).trace = s.trace ++ [.rsp r] := rfl
@[simp] theorem State.respond_refused (r : Response) : (s.respond r).refused = s.refused := rfl
@[simp] theorem State.respond_inbox (r : Response) : (s.respond r).inbox = s.inbox := rfl
@[simp] theorem State.respond_moves (r : Response) : (s.respond r).moves = s.moves := rfl
@[simp] theorem State.respond_tick (r : Response) : (s.respond r).tick = s.tick := rfl

@[simp] theorem State.driveCs_st (l : Level) : (s.driveCs l).st = s.st := rfl
@[simp] theorem State.driveCs_op (l : Level) : (s.driveCs l).op = s.op := rfl
@[simp] theorem State.driveCs_opnd (l : Level) : (s.driveCs l).opnd = s.opnd := rfl
@[simp] theorem State.driveCs_upc (l : Level) : (s.driveCs l).upc = s.upc := rfl
@[simp] theorem State.driveCs_csN (l : Level) : (s.driveCs l).csN = l := rfl
@[simp] theorem State.driveCs_dc (l : Level) : (s.driveCs l).dc = s.dc := rfl
@[simp] theorem State.driveCs_rstN (l : Level) : (s.driveCs l).rstN = s.rstN := rfl
@[simp] theorem State.driveCs_fault (l : Level) : (s.driveCs l).fault = s.fault := rfl
@[simp] theorem State.driveCs_fb (l : Level) : (s.driveCs l).fb = s.fb := rfl
@[simp] theorem State.driveCs_trace (l : Level) : (s.driveCs l).trace = s.trace ++ [.cs l] := rfl
@[simp] theorem State.driveCs_refused (l : Level) : (s.driveCs l).refused = s.refused := rfl
@[simp] theorem State.driveCs_inbox (l : Level) : (s.driveCs l).inbox = s.inbox := rfl
@[simp] theorem State.driveCs_moves (l : Level) : (s.driveCs l).moves = s.moves := rfl
@[simp] theorem State.driveCs_tick (l : Level) : (s.driveCs l).tick = s.tick := rfl

@[simp] theorem State.driveDc_st (l : Level) : (s.driveDc l).st = s.st := rfl
@[simp] theorem State.driveDc_op (l : Level) : (s.driveDc l).op = s.op := rfl
@[simp] theorem State.driveDc_opnd (l : Level) : (s.driveDc l).opnd = s.opnd := rfl
@[simp] theorem State.driveDc_upc (l : Level) : (s.driveDc l).upc = s.upc := rfl
@[simp] theorem State.driveDc_csN (l : Level) : (s.driveDc l).csN = s.csN := rfl
@[simp] theorem State.driveDc_dc (l : Level) : (s.driveDc l).dc = l := rfl
@[simp] theorem State.driveDc_rstN (l : Level) : (s.driveDc l).rstN = s.rstN := rfl
@[simp] theorem State.driveDc_fault (l : Level) : (s.driveDc l).fault = s.fault := rfl
@[simp] theorem State.driveDc_fb (l : Level) : (s.driveDc l).fb = s.fb := rfl
@[simp] theorem State.driveDc_trace (l : Level) : (s.driveDc l).trace = s.trace ++ [.dc l] := rfl
@[simp] theorem State.driveDc_refused (l : Level) : (s.driveDc l).refused = s.refused := rfl
@[simp] theorem State.driveDc_inbox (l : Level) : (s.driveDc l).inbox = s.inbox := rfl
@[simp] theorem State.driveDc_moves (l : Level) : (s.driveDc l).moves = s.moves := rfl
@[simp] theorem State.driveDc_tick (l : Level) : (s.driveDc l).tick = s.tick := rfl

@[simp] theorem State.driveRst_st (l : Level) : (s.driveRst l).st = s.st := rfl
@[simp] theorem State.driveRst_op (l : Level) : (s.driveRst l).op = s.op := rfl
@[simp] theorem State.driveRst_opnd (l : Level) : (s.driveRst l).opnd = s.opnd := rfl
@[simp] theorem State.driveRst_upc (l : Level) : (s.driveRst l).upc = s.upc := rfl
@[simp] theorem State.driveRst_csN (l : Level) : (s.driveRst l).csN = s.csN := rfl
@[simp] theorem State.driveRst_dc (l : Level) : (s.driveRst l).dc = s.dc := rfl
@[simp] theorem State.driveRst_rstN (l : Level) : (s.driveRst l).rstN = l := rfl
@[simp] theorem State.driveRst_fault (l : Level) : (s.driveRst l).fault = s.fault := rfl
@[simp] theorem State.driveRst_fb (l : Level) : (s.driveRst l).fb = s.fb := rfl
@[simp] theorem State.driveRst_trace (l : Level) : (s.driveRst l).trace = s.trace ++ [.rst l] := rfl
@[simp] theorem State.driveRst_refused (l : Level) : (s.driveRst l).refused = s.refused := rfl
@[simp] theorem State.driveRst_inbox (l : Level) : (s.driveRst l).inbox = s.inbox := rfl
@[simp] theorem State.driveRst_moves (l : Level) : (s.driveRst l).moves = s.moves := rfl
@[simp] theorem State.driveRst_tick (l : Level) : (s.driveRst l).tick = s.tick := rfl

@[simp] theorem State.nextMicroOp_st : (s.nextMicroOp).st = s.st := rfl
@[simp] theorem State.nextMicroOp_op : (s.nextMicroOp).op = s.op := rfl
@[simp] theorem State.nextMicroOp_opnd : (s.nextMicroOp).opnd = s.opnd := rfl
@[simp] theorem State.nextMicroOp_upc : (s.nextMicroOp).upc = s.upc + 1 := rfl
@[simp] theorem State.nextMicroOp_csN : (s.nextMicroOp).csN = s.csN := rfl
@[simp] theorem State.nextMicroOp_dc : (s.nextMicroOp).dc = s.dc := rfl
@[simp] theorem State.nextMicroOp_rstN : (s.nextMicroOp).rstN = s.rstN := rfl
@[simp] theorem State.nextMicroOp_fault : (s.nextMicroOp).fault = s.fault := rfl
@[simp] theorem State.nextMicroOp_fb : (s.nextMicroOp).fb = s.fb := rfl
@[simp] theorem State.nextMicroOp_trace : (s.nextMicroOp).trace = s.trace := rfl
@[simp] theorem State.nextMicroOp_refused : (s.nextMicroOp).refused = s.refused := rfl
@[simp] theorem State.nextMicroOp_inbox : (s.nextMicroOp).inbox = s.inbox := rfl
@[simp] theorem State.nextMicroOp_moves : (s.nextMicroOp).moves = s.moves := rfl
@[simp] theorem State.nextMicroOp_tick : (s.nextMicroOp).tick = s.tick := rfl

@[simp] theorem State.markRefused_st : (s.markRefused).st = s.st := rfl
@[simp] theorem State.markRefused_op : (s.markRefused).op = s.op := rfl
@[simp] theorem State.markRefused_opnd : (s.markRefused).opnd = s.opnd := rfl
@[simp] theorem State.markRefused_upc : (s.markRefused).upc = s.upc := rfl
@[simp] theorem State.markRefused_csN : (s.markRefused).csN = s.csN := rfl
@[simp] theorem State.markRefused_dc : (s.markRefused).dc = s.dc := rfl
@[simp] theorem State.markRefused_rstN : (s.markRefused).rstN = s.rstN := rfl
@[simp] theorem State.markRefused_fault : (s.markRefused).fault = s.fault := rfl
@[simp] theorem State.markRefused_fb : (s.markRefused).fb = s.fb := rfl
@[simp] theorem State.markRefused_trace : (s.markRefused).trace = s.trace := rfl
@[simp] theorem State.markRefused_refused : (s.markRefused).refused = true := rfl
@[simp] theorem State.markRefused_inbox : (s.markRefused).inbox = s.inbox := rfl
@[simp] theorem State.markRefused_moves : (s.markRefused).moves = s.moves := rfl
@[simp] theorem State.markRefused_tick : (s.markRefused).tick = s.tick := rfl

@[simp] theorem raiseFatal_st (code : FatalCause) : (raiseFatal code s).st = s.st := rfl
@[simp] theorem raiseFatal_op (code : FatalCause) : (raiseFatal code s).op = s.op := rfl
@[simp] theorem raiseFatal_opnd (code : FatalCause) : (raiseFatal code s).opnd = s.opnd := rfl
@[simp] theorem raiseFatal_upc (code : FatalCause) : (raiseFatal code s).upc = s.upc := rfl
@[simp] theorem raiseFatal_csN (code : FatalCause) : (raiseFatal code s).csN = s.csN := rfl
@[simp] theorem raiseFatal_dc (code : FatalCause) : (raiseFatal code s).dc = s.dc := rfl
@[simp] theorem raiseFatal_rstN (code : FatalCause) : (raiseFatal code s).rstN = s.rstN := rfl
@[simp] theorem raiseFatal_fault (code : FatalCause) : (raiseFatal code s).fault = some ⟨code, s.upc⟩ := rfl
@[simp] theorem raiseFatal_fb (code : FatalCause) : (raiseFatal code s).fb = s.fb := rfl
@[simp] theorem raiseFatal_trace (code : FatalCause) : (raiseFatal code s).trace = s.trace ++ [.rsp (.err code s.upc)] := rfl
@[simp] theorem raiseFatal_refused (code : FatalCause) : (raiseFatal code s).refused = s.refused := rfl
@[simp] theorem raiseFatal_inbox (code : FatalCause) : (raiseFatal code s).inbox = s.inbox := rfl
@[simp] theorem raiseFatal_moves (code : FatalCause) : (raiseFatal code s).moves = s.moves := rfl
@[simp] theorem raiseFatal_tick (code : FatalCause) : (raiseFatal code s).tick = s.tick := rfl

@[simp] theorem complete_st (op : OpKind) : (complete op s).st = op.stCompleted s.st := rfl
@[simp] theorem complete_op (op : OpKind) : (complete op s).op = none := rfl
@[simp] theorem complete_opnd (op : OpKind) : (complete op s).opnd = .empty := rfl
@[simp] theorem complete_upc (op : OpKind) : (complete op s).upc = 0 := rfl
@[simp] theorem complete_csN (op : OpKind) : (complete op s).csN = s.csN := rfl
@[simp] theorem complete_dc (op : OpKind) : (complete op s).dc = s.dc := rfl
@[simp] theorem complete_rstN (op : OpKind) : (complete op s).rstN = s.rstN := rfl
@[simp] theorem complete_fault (op : OpKind) : (complete op s).fault = s.fault := rfl
@[simp] theorem complete_fb (op : OpKind) : (complete op s).fb = s.fb := rfl
@[simp] theorem complete_trace (op : OpKind) : (complete op s).trace = s.trace ++ [.rsp .ok] := rfl
@[simp] theorem complete_refused (op : OpKind) : (complete op s).refused = s.refused := rfl
@[simp] theorem complete_inbox (op : OpKind) : (complete op s).inbox = s.inbox := rfl
@[simp] theorem complete_moves (op : OpKind) : (complete op s).moves = s.moves.drop 1 := rfl
@[simp] theorem complete_tick (op : OpKind) : (complete op s).tick = s.tick + 1 := rfl

theorem State.elapse_zero : s.elapse 0 = s := rfl

theorem State.elapse_elapse (m n : Nat) : (s.elapse m).elapse n = s.elapse (m + n) := by
  simp [State.elapse, Nat.add_assoc]

/-- The environment's moves after `n` steps have gone by. -/
@[simp] theorem State.moveAt_elapse (n k : Nat) : (s.elapse n).moveAt k = s.moveAt (n + k) := by
  simp [State.moveAt, State.elapse, Nat.add_assoc]

/-- `moveAt` depends on the listed moves and the counter only. -/
theorem State.moveAt_congr {s t : State} (hm : s.moves = t.moves) (ht : s.tick = t.tick) (k : Nat) :
    s.moveAt k = t.moveAt k := by
  simp [State.moveAt, hm, ht]

theorem State.ready_iff : s.ready = true ↔ s.op = none ∧ s.fault = none := by
  simp [State.ready]

end Sys2Proof.Machine
end

