-- ==== Sys2Proof/Laws/Micro.lean ====
section
/-! SUPPORT. What a micro-op can do, what a list of them does when each completes, and the shape of a transaction. -/

namespace Sys2Proof.Machine

open Sys2Proof Sys2Proof.Safety

/-! ## Lists of micro-ops that complete -/

@[simp] theorem csAfter_nil (l : Level) : csAfter l [] = l := rfl
@[simp] theorem dcAfter_nil (l : Level) : dcAfter l [] = l := rfl
@[simp] theorem rstAfter_nil (l : Level) : rstAfter l [] = l := rfl

@[simp] theorem csAfter_append (l : Level) (a b : List MicroOp) : csAfter l (a ++ b) = csAfter (csAfter l a) b :=
  List.foldl_append
@[simp] theorem dcAfter_append (l : Level) (a b : List MicroOp) : dcAfter l (a ++ b) = dcAfter (dcAfter l a) b :=
  List.foldl_append
@[simp] theorem rstAfter_append (l : Level) (a b : List MicroOp) : rstAfter l (a ++ b) = rstAfter (rstAfter l a) b :=
  List.foldl_append

theorem csAfter_tx (l : Level) (p : List Byte) : csAfter l (p.map .tx) = l := by
  induction p with
  | nil => rfl
  | cons b p ih => exact ih

theorem dcAfter_tx (l : Level) (p : List Byte) : dcAfter l (p.map .tx) = l := by
  induction p with
  | nil => rfl
  | cons b p ih => exact ih

theorem rstAfter_tx (l : Level) (p : List Byte) : rstAfter l (p.map .tx) = l := by
  induction p with
  | nil => rfl
  | cons b p ih => exact ih

@[simp] theorem csAfter_xact (l : Level) (r : Byte) (p : List Byte) : csAfter l (xact r p) = .high := by
  simp only [xact, csAfter_append, csAfter_tx]
  rfl

@[simp] theorem dcAfter_xact (l : Level) (r : Byte) (p : List Byte) : dcAfter l (xact r p) = .high := by
  simp only [xact, dcAfter_append, dcAfter_tx]
  rfl

@[simp] theorem rstAfter_xact (l : Level) (r : Byte) (p : List Byte) : rstAfter l (xact r p) = l := by
  simp only [xact, rstAfter_append, rstAfter_tx]
  rfl

@[simp] theorem length_xact (r : Byte) (p : List Byte) : (xact r p).length = 5 + p.length := by
  simp [xact]
  omega

theorem eventsFrom_cons (s : State) (m : MicroOp) (ms : List MicroOp) :
    eventsFrom s (m :: ms) = eventOf s.move m :: eventsFrom (s.elapse 1) ms := by
  simp [eventsFrom, List.mapIdx_cons, State.move, Nat.add_comm]

theorem eventsFrom_append (s : State) (a b : List MicroOp) :
    eventsFrom s (a ++ b) = eventsFrom s a ++ eventsFrom (s.elapse a.length) b := by
  simp [eventsFrom, List.mapIdx_append, Nat.add_comm]

theorem eventsFrom_congr {s t : State} (hm : s.moves = t.moves) (ht : s.tick = t.tick) (ops : List MicroOp) :
    eventsFrom s ops = eventsFrom t ops := by
  simp [eventsFrom, State.moveAt_congr hm ht]

/-- A transaction makes no draw: its events are the same whatever the environment does (R140). -/
theorem eventsFrom_xact (s : State) (r : Byte) (p : List Byte) : eventsFrom s (xact r p) = xactEvents r p := by
  have htx : ∀ (p : List Byte) (s : State), eventsFrom s (p.map .tx) = p.map .tx := by
    intro p
    induction p with
    | nil => intro s; rfl
    | cons b p ih => intro s; rw [List.map_cons, eventsFrom_cons, ih]; rfl
  unfold xact xactEvents
  rw [eventsFrom_append, eventsFrom_append, htx]
  rfl

theorem moveAt_afterMicroOps (ops : List MicroOp) (s : State) (k : Nat) :
    (afterMicroOps ops s).moveAt k = s.moveAt (ops.length + k) := by
  rw [← State.moveAt_elapse]
  exact State.moveAt_congr rfl rfl k

theorem afterMicroOps_nil (s : State) : afterMicroOps [] s = s := by
  simp [afterMicroOps, eventsFrom]

theorem afterMicroOps_append (a b : List MicroOp) (s : State) :
    afterMicroOps (a ++ b) s = afterMicroOps b (afterMicroOps a s) := by
  have h : eventsFrom (s.elapse a.length) b = eventsFrom (afterMicroOps a s) b :=
    eventsFrom_congr rfl rfl b
  simp only [afterMicroOps, eventsFrom_append, h, csAfter_append, dcAfter_append, rstAfter_append, List.length_append,
    List.drop_drop, List.append_assoc, Nat.add_assoc]

theorem afterMicroOps_cons (m : MicroOp) (ms : List MicroOp) (s : State) :
    afterMicroOps (m :: ms) s = afterMicroOps ms (afterMicroOps [m] s) :=
  afterMicroOps_append [m] ms s

/-! ## One micro-op -/

/-- A micro-op that the environment lets complete (R123, R124, R125, R131). -/
theorem microOp_completes (c : Config) {m : MicroOp} {s : State} (h : Lets s.move m) :
    microOp c m s = afterMicroOps [m] s := by
  cases m <;> simp_all [Lets, microOp, transmit, busyWait, afterMicroOps, eventsFrom, eventOf, csAfter, dcAfter, rstAfter,
    State.driveCs, State.driveDc, State.driveRst, State.emit, State.nextMicroOp, State.elapse, State.move]

/-- Everything a micro-op can do: complete; hold at a busy wait; raise BusFault at a `TX`; raise ProtocolTimeout at a busy
wait (R123, R124, R125, R131, R163). -/
theorem microOp_cases (c : Config) (m : MicroOp) (s : State) :
    (Lets s.move m ∧ microOp c m s = afterMicroOps [m] s) ∨
    (m = .waitBusy ∧ s.move.busy = true ∧ (s.move.timeout && c.busyTimeout.isSome) = false ∧
      microOp c m s = s.elapse 1) ∨
    (∃ b, m = .tx b ∧ s.move.txFault = true ∧ microOp c m s = (raiseFatal .busFault s).elapse 1) ∨
    (m = .waitBusy ∧ s.move.busy = true ∧ (s.move.timeout && c.busyTimeout.isSome) = true ∧
      microOp c m s = (raiseFatal .protocolTimeout s).elapse 1) := by
  cases m with
  | tx b =>
    cases h : s.move.txFault with
    | false => exact .inl ⟨h, microOp_completes c (m := .tx b) h⟩
    | true => exact .inr (.inr (.inl ⟨b, rfl, rfl, by simp [microOp, transmit, h, raise]⟩))
  | waitBusy =>
    cases h : s.move.busy with
    | false => exact .inl ⟨h, microOp_completes c (m := .waitBusy) h⟩
    | true =>
      cases h' : (s.move.timeout && c.busyTimeout.isSome) with
      | false => exact .inr (.inl ⟨rfl, rfl, rfl, by simp [microOp, busyWait, h, h']⟩)
      | true => exact .inr (.inr (.inr ⟨rfl, rfl, rfl, by simp only [microOp, busyWait, h, h', raise]; rfl⟩))
  | cs l => exact .inl ⟨trivial, microOp_completes c (m := .cs l) trivial⟩
  | dc l => exact .inl ⟨trivial, microOp_completes c (m := .dc l) trivial⟩
  | rst l => exact .inl ⟨trivial, microOp_completes c (m := .rst l) trivial⟩
  | delay d => exact .inl ⟨trivial, microOp_completes c (m := .delay d) trivial⟩

/-- What no micro-op changes (R23, R24, R30). -/
theorem microOp_frame (c : Config) (m : MicroOp) (s : State) :
    (microOp c m s).st = s.st ∧ (microOp c m s).op = s.op ∧ (microOp c m s).opnd = s.opnd ∧
    (microOp c m s).fb = s.fb ∧ (microOp c m s).refused = s.refused ∧ (microOp c m s).inbox = s.inbox ∧
    (microOp c m s).moves = s.moves.drop 1 ∧ (microOp c m s).tick = s.tick + 1 := by
  rcases microOp_cases c m s with ⟨_, h⟩ | ⟨_, _, _, h⟩ | ⟨_, _, _, h⟩ | ⟨_, _, _, h⟩ <;> rw [h] <;> simp [afterMicroOps]

/-! ## Lists of micro-ops -/

/-- A list of micro-ops each of which the environment lets complete. -/
theorem runMicroOps_completes (c : Config) (ops : List MicroOp) (s : State) (hf : s.fault = none)
    (h : ∀ k m, ops[k]? = some m → Lets (s.moveAt k) m) : runMicroOps c ops s = afterMicroOps ops s := by
  induction ops generalizing s with
  | nil => simp [runMicroOps, afterMicroOps_nil]
  | cons m ms ih =>
    have h0 : microOp c m s = afterMicroOps [m] s := microOp_completes c (h 0 m rfl)
    have hf' : (afterMicroOps [m] s).fault = none := hf
    rw [runMicroOps, h0, hf', if_neg (by simp), ih _ hf', ← afterMicroOps_cons]
    intro k m' hk
    have := h (k + 1) m' (by simpa using hk)
    rwa [moveAt_afterMicroOps, List.length_singleton, Nat.add_comm]

/-- The first micro-op the environment does not let complete stops the list with its exception (R166, R167): the ones
before it have completed. -/
theorem runMicroOps_append (c : Config) (a b : List MicroOp) (s : State) (hf : s.fault = none)
    (h : ∀ k m, a[k]? = some m → Lets (s.moveAt k) m) :
    runMicroOps c (a ++ b) s = runMicroOps c b (afterMicroOps a s) := by
  induction a generalizing s with
  | nil => simp [afterMicroOps_nil]
  | cons m ms ih =>
    have h0 : microOp c m s = afterMicroOps [m] s := microOp_completes c (h 0 m rfl)
    have hf' : (afterMicroOps [m] s).fault = none := hf
    rw [List.cons_append, runMicroOps, h0, hf', if_neg (by simp), ih _ hf', ← afterMicroOps_cons]
    intro k m' hk
    have := h (k + 1) m' (by simpa using hk)
    rwa [moveAt_afterMicroOps, List.length_singleton, Nat.add_comm]

end Sys2Proof.Machine
end

