-- ==== Sys2Proof/Laws/PerInstr.lean ====
section
/-! SUPPORT. For every instruction: its encoded form has the format the spec gives it. -/

/-- A well-formed host operation is encoded as a word that fits a pattern of R73, with as many stream bytes as the word
announces (R75); a well-formed bus command as the opcode byte of a register, with as many payload bytes as the table of R80
gives that register. -/
def Sys2Proof.Laws.EncodedFormat.Statement (i : Sys2Proof.Instr) : Prop :=
  ∀ c : Sys2Proof.Config, i.wellFormed c = true →
    match Sys2Proof.encode c i with
    | .request w stream => Sys2Proof.Safety.NamesOperation w ∧ stream.length = Sys2Proof.streamLength c w
    | .transaction opcode payload => ∃ r, opcode = c.addr r ∧ payload.length = c.payloadLength r

namespace Sys2Proof.Laws.EncodedFormat

open Sys2Proof

/-- Format H0 without a stream. -/
theorem h0 (c : Config) {n : Nat} (hn : n ∈ [0x2, 0x5, 0x6, 0x8, 0x9, 0xC]) :
    Safety.NamesOperation (wordH0 (BitVec.ofNat 4 n)) ∧
    ([] : List Byte).length = streamLength c (wordH0 (BitVec.ofNat 4 n)) := by
  rw [namesOperation_iff, streamLength, hopField_wordH0, reservedH0_wordH0]
  fin_cases hn <;> exact ⟨by decide, rfl⟩

/-- Format HP, and FB.QUERY in it. -/
theorem hp (c : Config) {n : Nat} (v : Bool) (x y : Int) (hn : n = 0x1 ∨ n = 0x4 ∨ n = 0x3 ∧ v = false) :
    Safety.NamesOperation (wordHP (BitVec.ofNat 4 n) v x y) ∧
    ([] : List Byte).length = streamLength c (wordHP (BitVec.ofNat 4 n) v x y) := by
  rw [namesOperation_iff, streamLength, hopField_wordHP, reservedHP_wordHP]
  rcases hn with rfl | rfl | ⟨rfl, rfl⟩
  · exact ⟨.inl ⟨rfl, rfl⟩, rfl⟩
  · exact ⟨.inr (.inr (.inl ⟨rfl, rfl⟩)), rfl⟩
  · exact ⟨.inr (.inl ⟨rfl, reservedHC_wordHP _ _ _⟩), rfl⟩

theorem fbWrite (x y : Int) (b : Bool) : Statement (.fbWrite x y b) :=
  fun c _ => hp c (n := 0x1) b x y (.inl rfl)

theorem fbClear : Statement .fbClear :=
  fun c _ => h0 c (n := 0x2) (by decide)

theorem fbQuery (x y : Int) : Statement (.fbQuery x y) :=
  fun c _ => hp c (n := 0x3) false x y (.inr (.inr ⟨rfl, rfl⟩))

theorem daPixel (x y : Int) (col : Color) : Statement (.daPixel x y col) :=
  fun c _ => hp c (n := 0x4) (bitOfColor col) x y (.inr (.inl rfl))

theorem daPush : Statement .daPush :=
  fun c _ => h0 c (n := 0x5) (by decide)

theorem daClearbuf : Statement .daClearbuf :=
  fun c _ => h0 c (n := 0x6) (by decide)

theorem ctReset : Statement .ctReset :=
  fun c _ => h0 c (n := 0x8) (by decide)

theorem ctInit : Statement .ctInit :=
  fun c _ => h0 c (n := 0x9) (by decide)

theorem ctSendframe (frame : List Byte) : Statement (.ctSendframe frame) := by
  intro c h
  have h' : frame.length = c.fbBytes := by simpa [Instr.wellFormed] using h
  show Safety.NamesOperation (wordH0 0xA#4) ∧ frame.length = streamLength c (wordH0 0xA#4)
  rw [namesOperation_iff, streamLength, hopField_wordH0, reservedH0_wordH0]
  exact ⟨by decide, h'⟩

theorem ctCmd (reg : Byte) (payload : List Byte) : Statement (.ctCmd reg payload) := by
  intro c h
  have h' : payload.length < 65536 := by simpa [Instr.wellFormed] using h
  show Safety.NamesOperation (wordHC 0xB#4 reg payload.length) ∧
    payload.length = streamLength c (wordHC 0xB#4 reg payload.length)
  rw [namesOperation_iff, streamLength, hopField_wordHC, reservedHC_wordHC, lengthField_wordHC _ _ _ h']
  exact ⟨.inr (.inr (.inr (.inl ⟨rfl, rfl⟩))), rfl⟩

theorem ctOff : Statement .ctOff :=
  fun c _ => h0 c (n := 0xC) (by decide)

theorem psr (p : Byte) : Statement (.psr p) :=
  fun _ _ => ⟨.psr, rfl, rfl⟩

theorem pwr (p0 p1 p2 p3 p4 : Byte) : Statement (.pwr p0 p1 p2 p3 p4) :=
  fun _ _ => ⟨.pwr, rfl, rfl⟩

theorem pon : Statement .pon :=
  fun _ _ => ⟨.pon, rfl, rfl⟩

theorem btst (p0 p1 p2 : Byte) : Statement (.btst p0 p1 p2) :=
  fun _ _ => ⟨.btst, rfl, rfl⟩

theorem pfs (p : Byte) : Statement (.pfs p) :=
  fun _ _ => ⟨.pfs, rfl, rfl⟩

theorem tse (p : Byte) : Statement (.tse p) :=
  fun _ _ => ⟨.tse, rfl, rfl⟩

theorem tcon (p : Byte) : Statement (.tcon p) :=
  fun _ _ => ⟨.tcon, rfl, rfl⟩

theorem cdi (p : Byte) : Statement (.cdi p) :=
  fun _ _ => ⟨.cdi, rfl, rfl⟩

theorem pll (p : Byte) : Statement (.pll p) :=
  fun _ _ => ⟨.pll, rfl, rfl⟩

theorem pof : Statement .pof :=
  fun _ _ => ⟨.pof, rfl, rfl⟩

theorem ptou : Statement .ptou :=
  fun _ _ => ⟨.ptou, rfl, rfl⟩

theorem dtm2 (frame : List Byte) : Statement (.dtm2 frame) :=
  fun _ h => ⟨.dtm2, rfl, eq_of_beq h⟩

theorem dsp : Statement .dsp :=
  fun _ _ => ⟨.dsp, rfl, rfl⟩

theorem drf : Statement .drf :=
  fun _ _ => ⟨.drf, rfl, rfl⟩

end Sys2Proof.Laws.EncodedFormat
end

