-- ==== Sys2Proof/Laws/Step.lean ====
section
/-! SUPPORT. What a step of the machine can do, said once, and runs of steps through a micro-program. -/

namespace Sys2Proof.Machine

open Sys2Proof Sys2Proof.Safety

/-! ## One step -/

/-- A block with an operation in progress takes that operation's step (R120). -/
theorem step_operation {s : State} {o : OpKind} (hf : s.fault = none) (hr : s.refused = false) (ho : s.op = some o) :
    step s = .next (operationStep Config.b2040 o s) := by
  simp [step, fetch, hf, hr, ho]

/-- The micro-op at `upc` (R25, R123). -/
theorem operationStep_microOp {c : Config} {s : State} {o : OpKind} {m : MicroOp}
    (h : (mprog c o s.opnd)[s.upc]? = some m) : operationStep c o s = microOp c m s := by
  simp [operationStep, h]

/-- Past the last micro-op the operation completes (R121). -/
theorem operationStep_complete {c : Config} {s : State} {o : OpKind}
    (h : (mprog c o s.opnd)[s.upc]? = none) : operationStep c o s = complete o s := by
  simp [operationStep, h]

/-- A ready block with a request takes it (R71). -/
theorem step_request {s : State} {r : Request} {rest : List Request} {i : Instr} (hs : s.ready = true)
    (hr : s.refused = false) (hi : s.inbox = r :: rest)
    (hd : decodeRequest Config.b2040 r.word r.stream = .instr i) : step s = exec i { s with inbox := rest } := by
  obtain ⟨ho, hf⟩ := (State.ready_iff s).1 hs
  simp [step, fetch, hf, hr, ho, hi, fetchRequest, hd]

/-- Everything a step that answers a next state can be: the step of the operation in progress, waiting, or a request. -/
theorem step_cases {s t : State} (h : step s = .next t) :
    s.fault = none ∧ s.refused = false ∧
    ((∃ o, s.op = some o ∧ t = operationStep Config.b2040 o s) ∨
     (s.op = none ∧ t = s.elapse 1) ∨
     (s.op = none ∧ ∃ r rest i, s.inbox = r :: rest ∧ decodeRequest Config.b2040 r.word r.stream = .instr i ∧
       exec i { s with inbox := rest } = .next t)) := by
  unfold step fetch at h
  cases hf : s.fault with
  | some r => simp [hf] at h
  | none =>
    cases hr : s.refused with
    | true => simp [hf, hr] at h
    | false =>
      refine ⟨rfl, rfl, ?_⟩
      cases ho : s.op with
      | some o =>
        simp only [hf, hr, ho, Bool.false_eq_true, if_false, Host.Outcome.next.injEq] at h
        exact .inl ⟨o, rfl, h.symm⟩
      | none =>
        simp only [hf, hr, ho, Bool.false_eq_true, if_false] at h
        cases hi : s.inbox with
        | nil =>
          simp only [hi, fetchRequest, Host.Outcome.next.injEq] at h
          exact .inr (.inl ⟨rfl, h.symm⟩)
        | cons r rest =>
          cases hd : decodeRequest Config.b2040 r.word r.stream with
          | instr i =>
            simp only [hi, fetchRequest, hd] at h
            exact .inr (.inr ⟨rfl, r, rest, i, rfl, hd, h⟩)
          | incomplete =>
            simp only [hi, fetchRequest, hd, Host.Outcome.next.injEq] at h
            exact .inr (.inl ⟨rfl, h.symm⟩)
          | rejected e => simp [hi, fetchRequest, hd] at h

/-- Everything a step of an operation in progress can do: a micro-op completes; it holds; it raises a fatal exception; the
operation completes (R121 to R125, R131). -/
theorem operationStep_cases (c : Config) (o : OpKind) (s : State) :
    (∃ m, (mprog c o s.opnd)[s.upc]? = some m ∧ Lets s.move m ∧ operationStep c o s = afterMicroOps [m] s) ∨
    ((mprog c o s.opnd)[s.upc]? = some .waitBusy ∧ s.move.busy = true ∧
      (s.move.timeout && c.busyTimeout.isSome) = false ∧ operationStep c o s = s.elapse 1) ∨
    (∃ b, (mprog c o s.opnd)[s.upc]? = some (.tx b) ∧ s.move.txFault = true ∧
      operationStep c o s = (raiseFatal .busFault s).elapse 1) ∨
    ((mprog c o s.opnd)[s.upc]? = some .waitBusy ∧ s.move.busy = true ∧
      (s.move.timeout && c.busyTimeout.isSome) = true ∧
      operationStep c o s = (raiseFatal .protocolTimeout s).elapse 1) ∨
    ((mprog c o s.opnd)[s.upc]? = none ∧ operationStep c o s = complete o s) := by
  cases h : (mprog c o s.opnd)[s.upc]? with
  | none => exact .inr (.inr (.inr (.inr ⟨rfl, operationStep_complete h⟩)))
  | some m =>
    rw [operationStep_microOp h]
    rcases microOp_cases c m s with ⟨h1, h2⟩ | ⟨rfl, h1, h2, h3⟩ | ⟨b, rfl, h1, h2⟩ | ⟨rfl, h1, h2, h3⟩
    · exact .inl ⟨m, rfl, h1, h2⟩
    · exact .inr (.inl ⟨rfl, h1, h2, h3⟩)
    · exact .inr (.inr (.inl ⟨b, rfl, h1, h2⟩))
    · exact .inr (.inr (.inr (.inl ⟨rfl, h1, h2, h3⟩)))

/-! ## Requests -/

/-- An immediate operation that answers a next state. -/
theorem immediate_next {f : State → State} {s t : State} (h : immediate f s = .next t) :
    s.ready = true ∧ t = (f s).elapse 1 := by
  unfold immediate at h
  split at h
  · exact ⟨‹_›, by simpa using h.symm⟩
  · cases h

/-- An acceptance that answers a next state (R120). -/
theorem accept_next {o : OpKind} {d : Operand} {s t : State} (h : accept o d s = .next t) :
    s.ready = true ∧ o.allowed s.st = true ∧
    t = { s with st := o.stAccepted s.st, op := some o, opnd := d, upc := 0 }.elapse 1 := by
  unfold accept at h
  split at h
  · split at h
    · exact ⟨‹_›, ‹_›, by simpa using h.symm⟩
    · cases h
  · cases h

/-- CT.OFF where it answers a next state (R130). -/
theorem execCtOff_next {s t : State} (h : execCtOff s = .next t) :
    s.ready = true ∧ s.st = .idle ∧ t = ({ s with st := .poweredOff }.respond .ok).elapse 1 := by
  unfold execCtOff at h
  split at h
  · split at h
    · exact ⟨‹_›, ‹_›, by simpa using h.symm⟩
    · cases h
  · cases h

/-- A bus command that answers a next state (R140). -/
theorem busCommand_next {c : Config} {r : Reg} {p : List Byte} {s t : State} (h : busCommand c r p s = .next t) :
    s.fault = none ∧ s.op ≠ none ∧ t = runMicroOps c (xact (c.addr r) p) s := by
  unfold busCommand at h
  cases hf : s.fault with
  | some f => simp [hf] at h
  | none =>
    cases ho : s.op with
    | none => simp [hf, ho] at h
    | some o => exact ⟨rfl, by simp, by simpa [hf, ho] using h.symm⟩

/-- The meaning of every bus command is the transaction of its register and payload (R141 to R155). -/
theorem exec_bus {i : Instr} {r : Reg} {p : List Byte} (h : i.busParts = some (r, p)) (s : State) :
    exec i s = busCommand Config.b2040 r p s := by
  cases i <;> simp only [Instr.busParts, Option.some.injEq, Prod.mk.injEq, reduceCtorEq] at h <;>
    (obtain ⟨rfl, rfl⟩ := h; rfl)

/-- No host operation is accepted while `ready` is false (R71, U8). -/
theorem exec_notReady {i : Instr} (hi : i.isHostOp = true) {s : State} (hs : s.ready = false) :
    exec i s = .refused .notReady := by
  cases i <;> first
    | (simp [Instr.isHostOp, Instr.busParts] at hi; done)
    | simp [exec, execFbWrite, execFbClear, execFbQuery, execDaPixel, execDaPush, execDaClearbuf, execCtReset, execCtInit,
        execCtSendframe, execCtCmd, execCtOff, immediate, accept, hs]

/-- The operation a controller request starts, with its operands (R72, R111). -/
def started (s : State) : Instr → Option (OpKind × Operand)
  | .daPush => some (.sendFrame, .frame (memFrame Config.b2040 s.fb))
  | .ctReset => some (.reset, .empty)
  | .ctInit => some (.init, .empty)
  | .ctSendframe frame => some (.sendFrame, .frame frame)
  | .ctCmd reg payload => some (.cmd, .command reg payload)
  | _ => none

/-- Everything a host operation that answers a next state can do: a pixel write; a clear; a query; an acceptance; CT.OFF
(R100 to R102, R110 to R112, R120, R130). -/
theorem exec_host_cases {i : Instr} (hi : i.isHostOp = true) {s t : State} (h : exec i s = .next t) :
    s.op = none ∧ s.fault = none ∧
    ((∃ x y b, (i = .fbWrite x y b ∨ ∃ col, i = .daPixel x y col ∧ b = Config.b2040.bitOf col) ∧
        t = (pixelWrite Config.b2040 x y b s).elapse 1) ∨
     ((i = .fbClear ∨ i = .daClearbuf) ∧ t = (clearAll Config.b2040 s).elapse 1) ∨
     (∃ x y, i = .fbQuery x y ∧ t = (pixelQuery Config.b2040 x y s).elapse 1) ∨
     (∃ o d, started s i = some (o, d) ∧ o.allowed s.st = true ∧
        t = { s with st := o.stAccepted s.st, op := some o, opnd := d, upc := 0 }.elapse 1) ∨
     (i = .ctOff ∧ s.st = .idle ∧ t = ({ s with st := .poweredOff }.respond .ok).elapse 1)) := by
  have himm : ∀ f, immediate f s = .next t → s.op = none ∧ s.fault = none ∧ t = (f s).elapse 1 := fun f h' =>
    have h1 := immediate_next h'
    have h2 := (State.ready_iff s).1 h1.1
    ⟨h2.1, h2.2, h1.2⟩
  have hacc : ∀ o d, accept o d s = .next t → s.op = none ∧ s.fault = none ∧ o.allowed s.st = true ∧
      t = { s with st := o.stAccepted s.st, op := some o, opnd := d, upc := 0 }.elapse 1 := fun o d h' =>
    have h1 := accept_next h'
    have h2 := (State.ready_iff s).1 h1.1
    ⟨h2.1, h2.2, h1.2⟩
  cases i with
  | fbWrite x y b => exact (himm _ h).imp id (.imp id fun e => .inl ⟨x, y, b, .inl rfl, e⟩)
  | daPixel x y col => exact (himm _ h).imp id (.imp id fun e => .inl ⟨x, y, _, .inr ⟨col, rfl, rfl⟩, e⟩)
  | fbClear => exact (himm _ h).imp id (.imp id fun e => .inr (.inl ⟨.inl rfl, e⟩))
  | daClearbuf => exact (himm _ h).imp id (.imp id fun e => .inr (.inl ⟨.inr rfl, e⟩))
  | fbQuery x y => exact (himm _ h).imp id (.imp id fun e => .inr (.inr (.inl ⟨x, y, rfl, e⟩)))
  | daPush => exact (hacc _ _ h).imp id (.imp id fun e => .inr (.inr (.inr (.inl ⟨_, _, rfl, e⟩))))
  | ctReset => exact (hacc _ _ h).imp id (.imp id fun e => .inr (.inr (.inr (.inl ⟨_, _, rfl, e⟩))))
  | ctInit => exact (hacc _ _ h).imp id (.imp id fun e => .inr (.inr (.inr (.inl ⟨_, _, rfl, e⟩))))
  | ctSendframe f => exact (hacc _ _ h).imp id (.imp id fun e => .inr (.inr (.inr (.inl ⟨_, _, rfl, e⟩))))
  | ctCmd r p => exact (hacc _ _ h).imp id (.imp id fun e => .inr (.inr (.inr (.inl ⟨_, _, rfl, e⟩))))
  | ctOff =>
    have h1 := execCtOff_next h
    have h2 := (State.ready_iff s).1 h1.1
    exact ⟨h2.1, h2.2, .inr (.inr (.inr (.inr ⟨rfl, h1.2⟩)))⟩
  | psr | pwr | pon | btst | pfs | tse | tcon | cdi | pll | pof | ptou | dtm2 | dsp | drf =>
    simp [Instr.isHostOp, Instr.busParts] at hi

/-- A step never takes a bus command as a request (R72). -/
theorem decodeRequest_isHostOp {c : Config} {w : Word} {stream : List Byte} {i : Instr}
    (h : decodeRequest c w stream = .instr i) : i.isHostOp = true := by
  unfold decodeRequest checkReserved withStream at h
  repeat' split at h
  all_goals first
    | (injection h with h; subst h; rfl)
    | cases h

/-! ## Runs -/

theorem run_zero (s : State) : run 0 s = .next s := rfl

theorem run_succ {s t : State} (h : step s = .next t) (n : Nat) :
    run (n + 1) s = run n t := by
  simp [run, h]

theorem run_succ_fault {s : State} {r : Fault} (h : step s = .fault r) (n : Nat) :
    run (n + 1) s = .fault r := by
  simp [run, h]

theorem run_succ_refused {s : State} {r : Refusal} (h : step s = .refused r) (n : Nat) :
    run (n + 1) s = .refused r := by
  simp [run, h]

theorem run_add {s t : State} {m : Nat} (h : run m s = .next t) (n : Nat) :
    run (m + n) s = run n t := by
  induction m generalizing s with
  | zero =>
    cases h
    rw [Nat.zero_add]
  | succ m ih =>
    cases hs : step s with
    | next u =>
      rw [run_succ hs] at h
      rw [Nat.add_right_comm, run_succ hs]
      exact ih h
    | fault r => rw [run_succ_fault hs] at h; cases h
    | refused r => rw [run_succ_refused hs] at h; cases h

/-- A stretch of the micro-program in progress that the environment lets complete takes one step a micro-op (R25, R61). -/
theorem run_microOps {s : State} {o : OpKind} {ops post : List MicroOp} (hf : s.fault = none) (hr : s.refused = false)
    (ho : s.op = some o) (hp : (mprog Config.b2040 o s.opnd).drop s.upc = ops ++ post)
    (h : ∀ k m, ops[k]? = some m → Lets (s.moveAt k) m) :
    run ops.length s = .next (afterMicroOps ops s) := by
  induction ops generalizing s with
  | nil => rw [afterMicroOps_nil]; rfl
  | cons m ms ih =>
    have hm : (mprog Config.b2040 o s.opnd)[s.upc]? = some m := by
      have := congrArg (·[0]?) hp
      simpa using this
    have hstep : step s = .next (afterMicroOps [m] s) := by
      rw [step_operation hf hr ho, operationStep_microOp hm, microOp_completes _ (h 0 m rfl)]
    rw [List.length_cons, run_succ hstep, afterMicroOps_cons m ms]
    refine ih (s := afterMicroOps [m] s) hf hr ho ?_ ?_
    · show (mprog Config.b2040 o s.opnd).drop (s.upc + 1) = _
      have := congrArg (List.drop 1) hp
      simpa [List.drop_drop] using this
    · intro k m' hk
      have := h (k + 1) m' (by simpa using hk)
      rwa [moveAt_afterMicroOps, List.length_singleton, Nat.add_comm]

end Sys2Proof.Machine
end

