-- ==== Sys2Proof/Tests/Slice0.lean ====
section
/-! SUPPORT. Tests: well-formedness, decoding, single steps, and for every claim with hypotheses a state and operands that
meet them. Expected results are from spec/95_test_vectors.md (V1 to V14, P1 to P7), and from the rule named where that file has
none. The opcode bytes and payloads of `vectors` are the sample values of spec/93_implementation_defined.md G2 and G3. -/

namespace Sys2Proof.Tests

open Sys2Proof Sys2Proof.Machine Sys2Proof.Safety

/-! ## Helpers -/

/-- Busy deasserted, no fault, the query answers, no overrun. -/
def good : Move := ⟨false, false, false, true, 0⟩

/-- The panel answers `busfault`. -/
def faulty : Move := ⟨false, true, false, true, 0⟩

/-- The panel asserts busy. -/
def busy : Move := ⟨true, false, false, true, 0⟩

/-- The panel asserts busy and the timeout fires. -/
def late : Move := ⟨true, false, true, true, 0⟩

/-- The query does not answer. -/
def mute : Move := ⟨false, false, false, false, 0⟩

/-- A ready block in a controller state, with its next moves. -/
def ready (st : CtrlState) (moves : List Move) : State := { State.reset with st := st, moves := moves }

/-- A block with an operation in progress. -/
def during (st : CtrlState) (op : OpKind) (opnd : Operand) (upc : Nat) (moves : List Move) : State :=
  { State.reset with st := st, op := some op, opnd := opnd, upc := upc, moves := moves }

/-- CT.CMD of PON's form in progress: five micro-ops. -/
def command (upc : Nat) (moves : List Move) : State := during .idle .cmd (.command 0x04#8 []) upc moves

/-- The next state, if there is one. -/
def nextOf : Host.Outcome State Fault Refusal → Option State
  | .next t => some t
  | .fault _ => none
  | .refused _ => none

/-- The refusal, if there is one. -/
def refusalOf : Host.Outcome State Fault Refusal → Option Refusal
  | .next _ => none
  | .fault _ => none
  | .refused r => some r

/-- The opcode bytes of G2. -/
def sampleAddr : Reg → Byte
  | .psr => 0x00#8 | .pwr => 0x01#8 | .pon => 0x04#8 | .btst => 0x06#8 | .pfs => 0x03#8 | .tse => 0x41#8
  | .tcon => 0x60#8 | .cdi => 0x50#8 | .pll => 0x30#8 | .pof => 0x02#8 | .ptou => 0x92#8 | .dtm2 => 0x13#8
  | .dsp => 0x11#8 | .drf => 0x12#8

/-- The payloads of G3. -/
def samplePayload : Reg → List Byte
  | .psr => [0x9F#8] | .pwr => [0x03#8, 0x00#8, 0x2B#8, 0x2B#8, 0x2B#8] | .pon => []
  | .btst => [0x17#8, 0x17#8, 0x17#8] | .pfs => [0x00#8] | .tse => [0x00#8] | .tcon => [0x22#8] | .cdi => [0x4C#8]
  | .pll => [0x3A#8] | .pof => [] | .ptou => [] | .dtm2 => [] | .dsp => [] | .drf => []

/-- The table of G4. What G4 splits of a sub-field the rules name once is folded into it (PSR's two scan fields, PWR's two
regulators, BTST's two times, TSE's sensor and offset). -/
def sampleFlags : FlagName → SubField
  | .panelResolution => ⟨0xC0#8, [0x00#8, 0x40#8, 0x80#8, 0xC0#8]⟩
  | .lutSource => ⟨0x20#8, [0x00#8, 0x20#8]⟩
  | .colorFormat => ⟨0x10#8, [0x00#8, 0x10#8]⟩
  | .scanDirection => ⟨0x0C#8, [0x00#8, 0x04#8, 0x08#8, 0x0C#8]⟩
  | .boosterEnable => ⟨0x02#8, [0x00#8, 0x02#8]⟩
  | .resetMode => ⟨0x01#8, [0x00#8, 0x01#8]⟩
  | .regulatorSelection => ⟨0x03#8, [0x00#8, 0x01#8, 0x02#8, 0x03#8]⟩
  | .boosterTiming => ⟨0xC7#8, [0x00#8, 0x40#8, 0x80#8, 0xC0#8].flatMap fun v =>
      (List.range 8).map fun k => v ||| BitVec.ofNat 8 k⟩
  | .boosterStrength => ⟨0x38#8, (List.range 8).map fun k => BitVec.ofNat 8 (8 * k)⟩
  | .frameRate => ⟨0x30#8, [0x00#8, 0x10#8, 0x20#8, 0x30#8]⟩
  | .temperatureSensorMode => ⟨0x8F#8, [0x00#8, 0x80#8].flatMap fun v =>
      (List.range 16).map fun k => v ||| BitVec.ofNat 8 k⟩
  | .pllFrequency => ⟨0x3F#8, (List.range 7).map fun k => BitVec.ofNat 8 (0x39 + k)⟩

/-- The geometries of G4. -/
def sampleResolution (v : Byte) : Nat × Nat :=
  if v = 0x00#8 then (96, 230) else if v = 0x40#8 then (96, 252) else if v = 0x80#8 then (128, 296) else (160, 296)

/-- A configuration with the sample values; every documented combination is valid. -/
def vectors : Config :=
  { Config.b2040 with addr := sampleAddr, payload := samplePayload, rstLow := 10000000, rstSettle := 10000000,
                      busyTimeout := none, flags := sampleFlags, resolution := sampleResolution,
                      validPayload := fun r b => (Config.combinations ((FlagName.ofReg r).map sampleFlags)).contains b }

/-- The same with a frame of two bytes. -/
def small : Config := { vectors with width := 1, height := 16 }

theorem moveAt_replicate {s : State} {n k : Nat} (h : s.moves = List.replicate n good) (hk : k < n) :
    s.moveAt k = good := by
  simp [State.moveAt, h, hk]

theorem lets_good (m : MicroOp) : Lets good m := by cases m <;> first | rfl | trivial

theorem sendframe_wellFormed (n : Nat) (v : Byte) :
    (Instr.ctSendframe (List.replicate n v)).wellFormed Config.b2040 = (n == 4736) := by
  rw [Instr.wellFormed, List.length_replicate]
  rfl

theorem dtm2_wellFormed (n : Nat) (v : Byte) :
    (Instr.dtm2 (List.replicate n v)).wellFormed Config.b2040 = (n == 4736) := by
  rw [Instr.wellFormed, List.length_replicate]
  rfl

theorem cmd_wellFormed (n : Nat) (v : Byte) (reg : Byte := 0x50#8) :
    (Instr.ctCmd reg (List.replicate n v)).wellFormed Config.b2040 = decide (n < 65536) := by
  rw [Instr.wellFormed, List.length_replicate]

/-! ## Well-formedness: each check refuses an ill-formed term (R74, R75, R35) -/

theorem test_wellFormed_x : (Instr.fbWrite 2048 0 true).wellFormed Config.b2040 = false := by decide
theorem test_wellFormed_y : (Instr.fbWrite 0 (-2049) true).wellFormed Config.b2040 = false := by decide
theorem test_wellFormed_query_x : (Instr.fbQuery (-2049) 0).wellFormed Config.b2040 = false := by decide
theorem test_wellFormed_query_y : (Instr.fbQuery 0 2048).wellFormed Config.b2040 = false := by decide
theorem test_wellFormed_pixel_x : (Instr.daPixel 2048 0 .on).wellFormed Config.b2040 = false := by decide
theorem test_wellFormed_pixel_y : (Instr.daPixel 0 2048 .on).wellFormed Config.b2040 = false := by decide
theorem test_wellFormed_edges : (Instr.fbWrite 2047 (-2048) true).wellFormed Config.b2040 = true := by decide
theorem test_wellFormed_frame : (Instr.ctSendframe (List.replicate 4735 0#8)).wellFormed Config.b2040 = false :=
  (sendframe_wellFormed _ _).trans (by decide)
theorem test_wellFormed_dtm2 : (Instr.dtm2 (List.replicate 4737 0#8)).wellFormed Config.b2040 = false :=
  (dtm2_wellFormed _ _).trans (by decide)
theorem test_wellFormed_payload : (Instr.ctCmd 0x50#8 (List.replicate 65536 0#8)).wellFormed Config.b2040 = false :=
  (cmd_wellFormed _ _ _).trans (by decide)
theorem test_wellFormed_payload_max : (Instr.ctCmd 0xFF#8 (List.replicate 65535 0#8)).wellFormed Config.b2040 = true :=
  (cmd_wellFormed _ _ _).trans (by decide)
theorem test_wellFormed_btst_first : (Instr.btst 0x16#8 0x17#8 0x17#8).wellFormed Config.b2040 = false := by decide
theorem test_wellFormed_btst_last : (Instr.btst 0x17#8 0x17#8 0x16#8).wellFormed Config.b2040 = false := by decide

/-! ## Decoding: words and bytes written out from the encodings (V3, V5, V7; 43_bus_commands.md with G2) -/

theorem test_decode_fbWrite : decodeRequest vectors 0x117FF800#32 [] = .instr (.fbWrite 2047 (-2048) true) := by decide
theorem test_decode_fbWrite_zero : decodeRequest vectors 0x1007F127#32 [] = .instr (.fbWrite 127 295 false) := by decide
theorem test_decode_fbClear : decodeRequest vectors 0x20000000#32 [] = .instr .fbClear := by decide
theorem test_decode_fbQuery : decodeRequest vectors 0x3007F127#32 [] = .instr (.fbQuery 127 295) := by decide
theorem test_decode_daPixel : decodeRequest vectors 0x41040094#32 [] = .instr (.daPixel 64 148 .on) := by decide
theorem test_decode_daPixel_off : decodeRequest vectors 0x40000000#32 [] = .instr (.daPixel 0 0 .off) := by decide
theorem test_decode_daPush : decodeRequest vectors 0x50000000#32 [] = .instr .daPush := by decide
theorem test_decode_daClearbuf : decodeRequest vectors 0x60000000#32 [] = .instr .daClearbuf := by decide
theorem test_decode_ctReset : decodeRequest vectors 0x80000000#32 [] = .instr .ctReset := by decide
theorem test_decode_ctInit : decodeRequest vectors 0x90000000#32 [] = .instr .ctInit := by decide
theorem test_decode_ctSendframe :
    decodeRequest small 0xA0000000#32 [0x80#8, 0x01#8] = .instr (.ctSendframe [0x80#8, 0x01#8]) := by decide
theorem test_decode_ctCmd : decodeRequest vectors 0xB0010005#32 [0x03#8, 0x00#8, 0x2B#8, 0x2B#8, 0x2B#8] =
    .instr (.ctCmd 0x01#8 [0x03#8, 0x00#8, 0x2B#8, 0x2B#8, 0x2B#8]) := by decide
theorem test_decode_ctCmd_bare : decodeRequest vectors 0xB0040000#32 [] = .instr (.ctCmd 0x04#8 []) := by decide
theorem test_decode_ctOff : decodeRequest vectors 0xC0000000#32 [] = .instr .ctOff := by decide

/-- V7, "Refused words". -/
theorem test_decode_refused :
    [0x00000000#32, 0x70000000#32, 0xD0000000#32, 0xE0000000#32, 0xF0000000#32].all
      (fun w => decodeRequest vectors w [] == .rejected .noSuchOperation) = true ∧
    [0x20000001#32, 0x12000000#32, 0x31000000#32, 0xB1500001#32, 0x80000001#32].all
      (fun w => decodeRequest vectors w [] == .rejected .reservedBitSet) = true := by decide

/-- R75: a stream that has not arrived in full, and one byte too many. -/
theorem test_decode_stream : decodeRequest vectors 0xB0500001#32 [] = .incomplete ∧
    decodeRequest vectors 0xB0500001#32 [0x4C#8, 0x00#8] = .rejected .streamTooLong := by decide

theorem test_decode_psr : decodeTransaction vectors 0x00#8 [0x9F#8] = .instr (.psr 0x9F#8) := by decide
theorem test_decode_pwr : decodeTransaction vectors 0x01#8 [0x03#8, 0x00#8, 0x2B#8, 0x2C#8, 0x2D#8] =
    .instr (.pwr 0x03#8 0x00#8 0x2B#8 0x2C#8 0x2D#8) := by decide
theorem test_decode_pon : decodeTransaction vectors 0x04#8 [] = .instr .pon := by decide
theorem test_decode_btst : decodeTransaction vectors 0x06#8 [0x17#8, 0x17#8, 0x17#8] =
    .instr (.btst 0x17#8 0x17#8 0x17#8) := by decide
theorem test_decode_pfs : decodeTransaction vectors 0x03#8 [0x00#8] = .instr (.pfs 0x00#8) := by decide
theorem test_decode_tse : decodeTransaction vectors 0x41#8 [0x00#8] = .instr (.tse 0x00#8) := by decide
theorem test_decode_tcon : decodeTransaction vectors 0x60#8 [0x22#8] = .instr (.tcon 0x22#8) := by decide
theorem test_decode_cdi : decodeTransaction vectors 0x50#8 [0x4C#8] = .instr (.cdi 0x4C#8) := by decide
theorem test_decode_pll : decodeTransaction vectors 0x30#8 [0x3A#8] = .instr (.pll 0x3A#8) := by decide
theorem test_decode_pof : decodeTransaction vectors 0x02#8 [] = .instr .pof := by decide
theorem test_decode_ptou : decodeTransaction vectors 0x92#8 [] = .instr .ptou := by decide
theorem test_decode_dtm2 : decodeTransaction small 0x13#8 [0x80#8, 0x01#8] = .instr (.dtm2 [0x80#8, 0x01#8]) := by decide
theorem test_decode_dsp : decodeTransaction vectors 0x11#8 [] = .instr .dsp := by decide
theorem test_decode_drf : decodeTransaction vectors 0x12#8 [] = .instr .drf := by decide

/-- R82, R83, R35: no such opcode; a payload byte too many; booster bytes that differ. -/
theorem test_decode_transaction_rejected :
    decodeTransaction vectors 0x10#8 [] = .rejected .unknownOpcode ∧
    decodeTransaction vectors 0x04#8 [0x00#8] = .rejected .payloadLength ∧
    decodeTransaction vectors 0x06#8 [0x17#8, 0x17#8, 0x16#8] = .rejected .boosterBytesDiffer := by decide

/-- V7, encoded. -/
theorem test_encode_words : encode vectors (.fbWrite 127 295 true) = .request 0x1107F127#32 [] ∧
    encode vectors (.fbQuery 200 5) = .request 0x300C8005#32 [] ∧
    encode vectors (.daPixel (-3) 10 .on) = .request 0x41FFD00A#32 [] ∧
    encode vectors (.ctCmd 0x50#8 [0x4C#8]) = .request 0xB0500001#32 [0x4C#8] := by decide

theorem clear_reads {i : Instr} (hi : ∀ s, exec i s = immediate (clearAll Config.b2040) s) (s : State)
    (h : s.ready = true) (k : Nat) (hk : k < 4736) :
    (nextOf (exec i s)).map (fun t => memRead t.fb k) = some 0x00#8 := by
  have hk' : k < Config.b2040.fbBytes := hk
  rw [hi, immediate, if_pos h, nextOf, Option.map_some, State.elapse_fb, clearAll, State.respond_fb, memRead_memZero hk']

/-- P1, as requests. -/
theorem test_boot_requests : requestsOf vectors (boot ++ [.fbClear] ++ dispPush) =
    [⟨0x80000000#32, []⟩, ⟨0x90000000#32, []⟩, ⟨0x20000000#32, []⟩, ⟨0x50000000#32, []⟩] := by decide

/-! ## Framebuffer and adapter (V1, V2, V3, V5, V6) -/

/-- V1. -/
theorem test_pixel_addresses :
    [(0, 0, 0, 7), (0, 7, 0, 0), (0, 8, 1, 7), (0, 295, 36, 0), (1, 9, 38, 6), (5, 100, 197, 3), (64, 148, 2386, 3),
     (127, 0, 4699, 7), (127, 295, 4735, 0)].all
      (fun p : Int × Int × Nat × Nat =>
        pixelByte Config.b2040 p.1 p.2.1 == p.2.2.1 && pixelBit p.2.1 == p.2.2.2) = true := by decide

/-- V2, fourth row to fifth. -/
theorem test_fbWrite : (nextOf (exec (.fbWrite 0 0 false) { ready .idle [] with fb := [(0, 0x91#8)] })).map (·.fb) =
    some [(0, 0x11#8)] := by decide

/-- V3, `fb.write -1, 5, 1`. -/
theorem test_fbWrite_dropped : (nextOf (exec (.fbWrite (-1) 5 true) { ready .idle [] with fb := [(0, 0x91#8)] })).map
    (fun t => (t.fb, t.trace)) = some ([(0, 0x91#8)], [.diag 1 (-1) 5, .rsp .ok]) := by decide

/-- V4, the last byte. -/
theorem test_fbClear : (nextOf (exec .fbClear { ready .idle [] with fb := [(4735, 0x91#8)] })).map
    (fun t => memRead t.fb 4735) = some 0x00#8 :=
  clear_reads (fun _ => rfl) _ rfl 4735 (by decide)

/-- V5, first row. -/
theorem test_fbQuery : (nextOf (exec (.fbQuery 0 0) { ready .idle [good] with fb := [(0, 0x80#8)] })).map (·.trace) =
    some [.rsp (.bit true)] := by decide

/-- V5, the other answer; V3, `fb.query 200, 5`. -/
theorem test_fbQuery_unknown :
    (nextOf (exec (.fbQuery 0 0) { ready .idle [mute] with fb := [(0, 0x80#8)] })).map (·.trace) =
      some [.rsp .unknown] ∧
    (nextOf (exec (.fbQuery 200 5) (ready .idle [good]))).map (·.trace) =
      some [.diag 1 200 5, .rsp .unknown] := by decide

/-- V6. -/
theorem test_daPixel : (nextOf (exec (.daPixel 127 295 .on) { ready .idle [] with fb := [(4735, 0x00#8)] })).map (·.fb) =
    some [(4735, 0x01#8)] := by decide

/-- V6, back to `off`. -/
theorem test_daPixel_off : (nextOf (exec (.daPixel 0 0 .off) { ready .idle [] with fb := [(0, 0x80#8)] })).map (·.fb) =
    some [(0, 0x00#8)] := by decide

/-- V10: the request of DA.PUSH. -/
theorem test_daPush : (nextOf (exec .daPush (ready .idle []))).map (fun t => (t.st, t.op, t.upc)) =
    some (.refreshing, some .sendFrame, 0) := by decide

/-- P7. -/
theorem test_daPush_refused : refusalOf (exec .daPush (ready .uninitialized [])) = some .outOfSequence := by decide

theorem test_daClearbuf : (nextOf (exec .daClearbuf { ready .idle [] with fb := [(0, 0x91#8)] })).map
    (fun t => memRead t.fb 0) = some 0x00#8 :=
  clear_reads (fun _ => rfl) _ rfl 0 (by decide)

/-! ## Controller operations (V9 to V14, P6, P7) -/

/-- V13, every row and column. -/
theorem test_acceptance :
    [CtrlState.uninitialized, .resetting, .idle, .poweredOff].map (fun st =>
      [Instr.fbClear, .ctReset, .ctInit, .ctCmd 0x04#8 [], .daPush, .ctOff].map fun i =>
        (nextOf (exec i (ready st []))).isSome) =
    [[true, true, false, true, false, false], [true, false, true, true, false, false],
     [true, false, false, true, true, true], [true, false, false, false, false, false]] := by decide

/-- V11: a step drives the reset line. -/
theorem test_ctReset : (nextOf (run 3 (during .resetting .reset .empty 0 [good, good, good]))).map
    (fun t => (panelTrace t.trace, t.rstN, t.upc)) = some ([.rst .low, .rst .high], .high, 3) := by decide

/-- V11: the hang. -/
theorem test_ctReset_hold : (nextOf (step (during .resetting .reset .empty 4 [busy]))).map
    (fun t => (t.trace, t.st, t.op, t.upc)) = some ([], .resetting, some .reset, 4) := by decide

/-- V9, the byte stream. -/
theorem test_ctInit : busBytes (eventsFrom (ready .resetting []) (initProgram vectors)) =
    [0x00#8, 0x9F#8, 0x01#8, 0x03#8, 0x00#8, 0x2B#8, 0x2B#8, 0x2B#8, 0x04#8, 0x06#8, 0x17#8, 0x17#8, 0x17#8, 0x03#8,
     0x00#8, 0x41#8, 0x00#8, 0x60#8, 0x22#8, 0x50#8, 0x4C#8, 0x30#8, 0x3A#8, 0x02#8] := by decide

/-- V12 (b). -/
theorem test_ctInit_busfault :
    (fun t : State => (t.st, t.op, t.upc, t.fault, t.trace))
      (operationStep vectors .init (during .initializing .init .empty 12 [faulty])) =
    (.initializing, some .init, 12, some ⟨.busFault, 12⟩, [.rsp (.err .busFault 12)]) := by decide

/-- V10, the byte stream, for a frame of two bytes. -/
theorem test_ctSendframe : busBytes (eventsFrom (ready .idle []) (sendFrameProgram small [0x80#8, 0x01#8])) =
    [0x04#8, 0x92#8, 0x13#8, 0x80#8, 0x01#8, 0x11#8, 0x12#8, 0x02#8] := by decide

/-- V14: with a timeout that fires; without one. -/
theorem test_ctSendframe_timeout :
    (microOp { vectors with busyTimeout := some 1 } .waitBusy (during .refreshing .sendFrame .empty 4761 [late])).fault =
      some ⟨.protocolTimeout, 4761⟩ ∧
    (microOp vectors .waitBusy (during .refreshing .sendFrame .empty 4761 [late])).fault = none := by decide

/-- P6: the step of a payload byte. -/
theorem test_ctCmd : (nextOf (step (during .idle .cmd (.command 0x50#8 [0x4C#8]) 4 [good]))).map
    (fun t => (t.trace, t.upc)) = some ([.tx 0x4C#8], 5) := by decide

/-- V12 (d). -/
theorem test_ctCmd_busfault : (nextOf (step (during .idle .cmd (.command 0x50#8 [0x4C#8]) 2 [faulty]))).map
    (fun t => (t.trace, t.upc, t.fault, t.op)) =
    some ([.rsp (.err .busFault 2)], 2, some ⟨.busFault, 2⟩, some .cmd) := by decide

/-- P6. -/
theorem test_ctOff : (nextOf (exec .ctOff (ready .idle []))).map (fun t => (t.st, t.trace)) =
    some (.poweredOff, [.rsp .ok]) := by decide

/-- V12 (a), V14, V5: response words. -/
theorem test_response_words : [Response.err .busFault 8, .err .protocolTimeout 4761, .bit true, .unknown].map
    Response.word = [0xF2000008#32, 0xF3001299#32, 0x10000001#32, 0x20000000#32] := by decide

/-! ## Bus commands (V8, V9, V10) -/

/-- The trace of a bus command inside an operation whose panel faults nothing. -/
def traceOf (i : Instr) : Option (List Event) := (nextOf (exec i (command 0 (List.replicate 10 good)))).map (·.trace)

theorem test_psr : traceOf (.psr 0x9F#8) = some
    [.cs .low, .dc .low, .tx (Config.b2040.addr .psr), .dc .high, .tx 0x9F#8, .cs .high] := rfl
theorem test_pwr : traceOf (.pwr 0x03#8 0x00#8 0x2B#8 0x2C#8 0x2D#8) = some
    [.cs .low, .dc .low, .tx (Config.b2040.addr .pwr), .dc .high, .tx 0x03#8, .tx 0x00#8, .tx 0x2B#8, .tx 0x2C#8,
     .tx 0x2D#8, .cs .high] := rfl
theorem test_pon : traceOf .pon = some
    [.cs .low, .dc .low, .tx (Config.b2040.addr .pon), .dc .high, .cs .high] := rfl
theorem test_btst : traceOf (.btst 0x17#8 0x17#8 0x17#8) = some
    [.cs .low, .dc .low, .tx (Config.b2040.addr .btst), .dc .high, .tx 0x17#8, .tx 0x17#8, .tx 0x17#8, .cs .high] := rfl
theorem test_pfs : traceOf (.pfs 0x01#8) = some
    [.cs .low, .dc .low, .tx (Config.b2040.addr .pfs), .dc .high, .tx 0x01#8, .cs .high] := rfl
theorem test_tse : traceOf (.tse 0x02#8) = some
    [.cs .low, .dc .low, .tx (Config.b2040.addr .tse), .dc .high, .tx 0x02#8, .cs .high] := rfl
theorem test_tcon : traceOf (.tcon 0x22#8) = some
    [.cs .low, .dc .low, .tx (Config.b2040.addr .tcon), .dc .high, .tx 0x22#8, .cs .high] := rfl
theorem test_cdi : traceOf (.cdi 0x4C#8) = some
    [.cs .low, .dc .low, .tx (Config.b2040.addr .cdi), .dc .high, .tx 0x4C#8, .cs .high] := rfl
theorem test_pll : traceOf (.pll 0x3A#8) = some
    [.cs .low, .dc .low, .tx (Config.b2040.addr .pll), .dc .high, .tx 0x3A#8, .cs .high] := rfl
theorem test_pof : traceOf .pof = some
    [.cs .low, .dc .low, .tx (Config.b2040.addr .pof), .dc .high, .cs .high] := rfl
theorem test_ptou : traceOf .ptou = some
    [.cs .low, .dc .low, .tx (Config.b2040.addr .ptou), .dc .high, .cs .high] := rfl
theorem test_dtm2 : traceOf (.dtm2 [0x80#8, 0x01#8]) = some
    [.cs .low, .dc .low, .tx (Config.b2040.addr .dtm2), .dc .high, .tx 0x80#8, .tx 0x01#8, .cs .high] := rfl
theorem test_dsp : traceOf .dsp = some
    [.cs .low, .dc .low, .tx (Config.b2040.addr .dsp), .dc .high, .cs .high] := rfl
theorem test_drf : traceOf .drf = some
    [.cs .low, .dc .low, .tx (Config.b2040.addr .drf), .dc .high, .cs .high] := rfl

/-- V12: a bus fault at the opcode leaves chip-select asserted and data/command low. -/
theorem test_bus_command_busfault : (nextOf (exec (.psr 0x9F#8) (command 0 [good, good, faulty]))).map
    (fun t => (t.upc, t.csN, t.dc, t.fault)) = some (2, .low, .low, some ⟨.busFault, 2⟩) := by decide

/-- The host's placing of an 8-bit row runs the transaction of that opcode byte. -/
theorem test_withFetchWord_8 : (nextOf (step (State.reset.withFetchWord 8 0x04))).map (·.trace) =
    some [.cs .low] := by decide

/-- The host's placing of a 32-bit row runs that request. -/
theorem test_withFetchWord_32 : (nextOf (step (State.reset.withFetchWord 32 0x11FFF005))).map (·.trace) =
    some [.diag 1 (-1) 5, .rsp .ok] := by decide

/-! ## Witnesses: for each claim with hypotheses, and each of its clauses, a state and operands that meet them -/

/-- A panel that lets everything complete lets each micro-op of a list complete at its step. -/
theorem lets_replicate {s : State} {n : Nat} {ops : List MicroOp} (h : s.moves = List.replicate n good)
    (hn : ops.length < n) : ∀ k m, ops[k]? = some m → Lets (s.moveAt (k + 1)) m := fun k m hk => by
  have hk := (List.getElem?_eq_some_iff.1 hk).1
  rw [moveAt_replicate h (by omega)]
  exact lets_good m

theorem witness_DecodeOfEncode : Config.b2040.Valid ∧
    (Instr.fbWrite (-2048) 2047 true).wellFormed Config.b2040 = true ∧
    (Instr.btst 0x17#8 0x17#8 0x17#8).wellFormed Config.b2040 = true :=
  ⟨Config.b2040_valid, by decide, by decide⟩

theorem witness_EncodeOfDecode : decode Config.b2040 (.request 0x1107F127#32 []) = .instr (.fbWrite 127 295 true) := by
  decide

theorem witness_IllegalWordsRefused :
    let r : Request := ⟨0x12000000#32, []⟩
    let s : State := { ready .idle [] with inbox := [⟨0x70000000#32, []⟩] }
    s.ready = true ∧ s.refused = false ∧ s.inbox = [⟨0x70000000#32, []⟩] ∧ ¬ NamesOperation 0x70000000#32 ∧
    ¬ NamesOperation r.word := by
  unfold NamesOperation
  decide

theorem witness_StepRunsDecodedRequest :
    let s : State := { ready .idle [] with inbox := [⟨0xB0500001#32, [0x4C#8]⟩] }
    s.ready = true ∧ s.refused = false ∧
    decodeRequest Config.b2040 0xB0500001#32 [0x4C#8] = .instr (.ctCmd 0x50#8 [0x4C#8]) := by decide

theorem witness_StepRunsMicroOp :
    let s := command 4 []
    s.fault = none ∧ s.refused = false ∧ s.op = some .cmd ∧
    (mprog Config.b2040 .cmd s.opnd)[s.upc]? = some (.cs .high) := by decide

theorem witness_LineDriveStep :
    (command 0 []).fault = none ∧ (command 0 []).refused = false ∧ (command 0 []).op = some .cmd ∧
    (mprog Config.b2040 .cmd (command 0 []).opnd)[0]? = some (.cs .low) ∧
    (mprog Config.b2040 .cmd (command 1 []).opnd)[1]? = some (.dc .low) ∧
    (mprog Config.b2040 .reset .empty)[0]? = some (.rst .low) ∧
    (mprog Config.b2040 .reset .empty)[2]? = some (.rst .high) :=
  ⟨rfl, rfl, rfl, rfl, rfl, rfl, rfl⟩

theorem witness_TransmitStep :
    (command 2 [good]).fault = none ∧ (command 2 [good]).refused = false ∧ (command 2 [good]).op = some .cmd ∧
    (mprog Config.b2040 .cmd (command 2 [good]).opnd)[2]? = some (.tx 0x04#8) ∧
    (command 2 [good]).move.txFault = false ∧ (command 2 [faulty]).move.txFault = true := by decide

theorem witness_SpecWordsDecode : (List.replicate 4736 0x55#8).length = 4736 := List.length_replicate

/-- Waiting for the panel after the reset pulse. -/
def waiting (moves : List Move) : State := during .resetting .reset .empty 4 moves

theorem witness_BusyWaitStep :
    (waiting [good]).fault = none ∧ (waiting [good]).refused = false ∧ (waiting [good]).op = some .reset ∧
    (mprog Config.b2040 .reset .empty)[4]? = some .waitBusy ∧ (waiting [good]).move.busy = false ∧
    (waiting [busy]).move.busy = true ∧ (waiting [late]).move.busy = true ∧ (waiting [late]).move.timeout = true ∧
    vectors.busyTimeout = none ∧ { vectors with busyTimeout := some 1 }.busyTimeout ≠ none :=
  ⟨rfl, rfl, rfl, rfl, rfl, rfl, rfl, rfl, rfl, Option.some_ne_none _⟩

theorem witness_DelayStep :
    let s := during .resetting .reset .empty 1 [⟨false, false, false, true, 7⟩]
    s.fault = none ∧ s.refused = false ∧ s.op = some .reset ∧
    (mprog Config.b2040 .reset s.opnd)[s.upc]? = some (.delay Config.b2040.rstLow) ∧
    Config.b2040.rstLow + 7 = Config.b2040.rstLow + s.move.overrun :=
  ⟨rfl, rfl, rfl, rfl, rfl⟩

theorem witness_CompletionStep :
    let s := command 5 []
    s.fault = none ∧ s.refused = false ∧ s.op = some .cmd ∧ s.upc = (mprog Config.b2040 .cmd s.opnd).length ∧
    (waiting []).upc + 1 = (mprog Config.b2040 .reset .empty).length :=
  ⟨rfl, rfl, rfl, rfl, rfl⟩

theorem witness_WaitingBlockKeepsItsState :
    let s : State := ready .idle [good]
    s.ready = true ∧ s.refused = false ∧ s.inbox = [] ∧
    (List.replicate 4735 0x00#8).length < Config.b2040.fbBytes ∧
    (List.replicate 65534 0x00#8).length < (0xFFFF#16).toNat := by
  refine ⟨rfl, rfl, rfl, ?_, ?_⟩ <;> rw [List.length_replicate] <;> decide

theorem witness_FrozenAfterFault :
    ({ command 2 [] with fault := some ⟨.busFault, 2⟩ } : State).fault = some ⟨.busFault, 2⟩ ∧
    Instr.fbClear.isHostOp = true ∧ Instr.pon.isHostOp = false := by decide

theorem witness_OneRequestAtATime : (command 2 [good]).op = some .cmd ∧ Instr.fbClear.isHostOp = true ∧
    ∃ t, step (command 2 [good]) = .next t :=
  ⟨rfl, rfl, _, rfl⟩

theorem witness_EveryRequestAnsweredOnce :
    ∃ t, step { ready .idle [good] with inbox := [⟨0xC0000000#32, []⟩] } = .next t := ⟨_, rfl⟩

theorem witness_FbWriteStoresOneBit : (ready .poweredOff []).ready = true ∧ inBounds Config.b2040 127 295 = true ∧
    inBounds Config.b2040 0 0 = true := by decide

theorem witness_DaPixelStoresTheColour : (ready .uninitialized []).ready = true ∧
    inBounds Config.b2040 127 0 = true ∧ inBounds Config.b2040 0 295 = true := by decide

theorem witness_OutOfBoundsAbsorbed : (ready .idle []).ready = true ∧
    ∀ p ∈ [((128 : Int), (0 : Int)), (0, 296), (-1, 5), (5, -1)],
      ¬ (0 ≤ p.1 ∧ p.1 < Config.b2040.width ∧ 0 ≤ p.2 ∧ p.2 < Config.b2040.height) := by decide

theorem witness_ClearZeroesEveryByte : (ready .idle []).ready = true ∧ 4735 < Config.b2040.fbBytes := by decide

theorem witness_QueryNeverWrong : (ready .idle [good]).ready = true ∧ inBounds Config.b2040 127 295 = true ∧
    (ready .idle [good]).move.avail = true ∧ (ready .idle [mute]).move.avail = false ∧
    inBounds Config.b2040 128 295 = false ∧ inBounds Config.b2040 0 (-1) = false := by decide

theorem witness_PixelMapBijective : Config.b2040.Valid ∧ inBounds Config.b2040 127 295 = true ∧
    4735 < Config.b2040.fbBytes :=
  ⟨Config.b2040_valid, by decide, by decide⟩

theorem witness_DefaultPixelAddresses : inBounds Config.b2040 127 295 = true := by decide

theorem witness_PixelWritesCommute : (ready .idle []).ready = true ∧ inBounds Config.b2040 0 0 = true ∧
    inBounds Config.b2040 0 7 = true ∧ ((0 : Int), (0 : Int)) ≠ (0, 7) := by decide

/-- Every in-bounds pixel. -/
def allPixels : List (Int × Int) :=
  (List.range 128).flatMap fun x : Nat => (List.range 296).map fun y : Nat => (Int.ofNat x, Int.ofNat y)

theorem witness_FillAfterClear : (ready .idle []).ready = true ∧
    (∀ p ∈ allPixels, inBounds Config.b2040 p.1 p.2 = true) ∧
    (∀ x y, inBounds Config.b2040 x y = true → (x, y) ∈ allPixels) := by
  have hw : ((Config.b2040.width : Nat) : Int) = 128 := rfl
  have hh : ((Config.b2040.height : Nat) : Int) = 296 := rfl
  refine ⟨rfl, fun p hp => ?_, fun x y h => ?_⟩
  · simp only [allPixels, List.mem_flatMap, List.mem_map, List.mem_range] at hp
    obtain ⟨x, hx, y, hy, rfl⟩ := hp
    rw [inBounds_iff, hw, hh]
    simp only [Int.ofNat_eq_natCast]
    omega
  · rw [inBounds_iff, hw, hh] at h
    simp only [allPixels, List.mem_flatMap, List.mem_map, List.mem_range]
    refine ⟨x.toNat, by omega, y.toNat, by omega, ?_⟩
    simp only [Int.ofNat_eq_natCast, Int.toNat_of_nonneg h.1, Int.toNat_of_nonneg h.2.2.1]

theorem witness_DrawKeepsLastColour : (ready .idle []).ready = true ∧ inBounds Config.b2040 127 295 = true ∧
    lastColor [(0, 0, .on), (0, 0, .off), (128, 296, .on)] 0 0 = some .off := by decide

theorem witness_PushSendsRawBytes : (ready .idle []).ready = true ∧ (ready .idle []).st = .idle ∧
    4735 < Config.b2040.fbBytes := by decide

theorem witness_ClearedBufferIsBlack : (ready .idle []).ready = true ∧ inBounds Config.b2040 127 295 = true := by decide

theorem witness_ControllerOperationsAccepted :
    [CtrlState.uninitialized, .resetting, .idle].all (fun st => (ready st []).ready && (ready st []).st != .poweredOff) =
      true := by decide

theorem witness_OutOfSequenceRefused : [CtrlState.uninitialized, .resetting, .idle, .poweredOff].all
    (fun st => (ready st []).ready && (ready st []).st == st) = true := by decide

theorem witness_OffIsTerminal : (ready .idle []).ready = true ∧ (ready .idle []).st = .idle ∧
    ∃ t, exec .ctOff (ready .idle []) = .next t :=
  ⟨rfl, rfl, _, rfl⟩

theorem witness_ResetProgram : Config.b2040.Valid := Config.b2040_valid

theorem witness_InitProgram : Config.b2040.Valid := Config.b2040_valid

theorem witness_SendFrameProgram : (List.replicate 4736 0x55#8).length = Config.b2040.fbBytes ∧
    (List.replicate 4736 0x55#8)[4735]? = some 0x55#8 := by
  rw [List.length_replicate, List.getElem?_replicate]
  exact ⟨rfl, rfl⟩

theorem witness_OperationRunsToCompletion :
    let s := command 0 (List.replicate 5 good)
    s.fault = none ∧ s.refused = false ∧ s.op = some .cmd ∧ s.upc ≤ (mprog Config.b2040 .cmd s.opnd).length ∧
    ∀ k m, (mprog Config.b2040 .cmd s.opnd)[s.upc + k]? = some m → Lets (s.moveAt k) m := by
  refine ⟨rfl, rfl, rfl, by decide, fun k m h => ?_⟩
  obtain ⟨hk, -⟩ := List.getElem?_eq_some_iff.1 h
  have hk' : 0 + k < 5 := hk
  rw [moveAt_replicate (n := 5) rfl (by omega)]
  exact lets_good m

theorem witness_ResetRun :
    let s := ready .uninitialized [busy, busy, busy, busy, faulty, good]
    s.ready = true ∧ s.refused = false ∧ s.st = .uninitialized ∧ (s.moveAt 5).busy = false :=
  ⟨rfl, rfl, rfl, rfl⟩

theorem witness_InitRun :
    let s := ready .resetting (List.replicate 67 good)
    s.ready = true ∧ s.refused = false ∧ s.st = .resetting ∧
    ∀ k m, (mprog Config.b2040 .init .empty)[k]? = some m → Lets (s.moveAt (k + 1)) m :=
  ⟨rfl, rfl, rfl, lets_replicate rfl (by decide)⟩

theorem witness_SendFrameRun :
    let s := ready .idle (List.replicate 4768 good)
    s.ready = true ∧ s.refused = false ∧ s.st = .idle ∧
    (∀ frame : List Byte, frame.length = 4736 → ∀ k m, (mprog Config.b2040 .sendFrame (.frame frame))[k]? = some m →
      Lets (s.moveAt (k + 1)) m) ∧
    (List.replicate 4736 0x55#8).length = 4736 ∧ (memFrame Config.b2040 s.fb).length = 4736 ∧
    ∀ j, j < 4736 → (memFrame Config.b2040 s.fb)[j]? = some (memRead s.fb j) := by
  refine ⟨rfl, rfl, rfl, fun frame h => lets_replicate rfl ?_, List.length_replicate, memFrame_length _ _,
    fun _ hj => memFrame_getElem? _ hj⟩
  simp only [mprog, sendFrameProgram, xactBare, List.length_append, length_xact, List.length_nil, List.length_singleton, h]
  omega

theorem witness_CmdRun :
    let s := ready .uninitialized (List.replicate 7 good)
    s.ready = true ∧ s.refused = false ∧ s.st ≠ .poweredOff ∧
    ∀ k, k = 3 ∨ 5 ≤ k ∧ k < 5 + [0x4C#8].length → (s.moveAt k).txFault = false := by
  refine ⟨rfl, rfl, by decide, fun k hk => ?_⟩
  have hk' : k < 7 := by
    rw [List.length_singleton] at hk
    omega
  rw [moveAt_replicate (n := 7) rfl hk']
  rfl

theorem witness_UnresponsivePanelHangs :
    let s := waiting [busy, busy, busy]
    s.fault = none ∧ s.refused = false ∧ s.op = some .reset ∧
    (mprog Config.b2040 .reset s.opnd)[s.upc]? = some .waitBusy ∧ ∀ k, k < 3 → (s.moveAt k).busy = true := by
  refine ⟨rfl, rfl, rfl, rfl, fun k hk => ?_⟩
  interval_cases k <;> rfl

theorem witness_CmdTerminates :
    let s := command 5 []
    s.fault = none ∧ s.refused = false ∧ s.op = some .cmd ∧ s.opnd = .command 0x04#8 [] ∧
    s.upc ≤ 5 + ([] : List Byte).length := by decide

/-- A block with nothing to do stays so. -/
theorem run_idle {n : Nat} {s t : State} (ho : s.op = none) (hi : s.inbox = []) (h : run n s = .next t) : t.op = none := by
  induction n generalizing s with
  | zero => cases h; exact ho
  | succ n ih =>
    cases hs : step s with
    | fault r => rw [run_succ_fault hs] at h; cases h
    | refused r => rw [run_succ_refused hs] at h; cases h
    | next u =>
      rw [run_succ hs] at h
      obtain ⟨-, -, ⟨o, h1, -⟩ | ⟨-, rfl⟩ | ⟨-, r, rest, i, h1, -⟩⟩ := step_cases hs
      · rw [ho] at h1; cases h1
      · exact ih (s := s.elapse 1) ho hi h
      · rw [hi] at h1; cases h1

/-- One held step, then the wait passes and the operation completes; what the panel does afterwards does not matter. -/
theorem responsive_waiting : ∀ k t, run k (waiting [busy, good, busy, busy]) = .next t → AtWait t →
    ∃ j, j < 2 ∧ (t.moveAt j).busy = false
  | 0, _, h, _ => by cases h; exact ⟨1, by decide, rfl⟩
  | 1, _, h, _ => by cases h; exact ⟨0, by decide, rfl⟩
  | 2, _, h, hw => by cases h; cases hw.2
  | k + 3, t, h, hw => by
    have h1 : t.op = none := run_idle (n := k) (s := complete .reset { waiting [] with
      upc := 5, trace := [.busyOk], moves := [busy, busy], tick := 2 }) rfl rfl h
    have h2 := hw.2
    simp [State.program, h1] at h2

theorem witness_ResponsivePanelTerminates :
    let s := waiting [busy, good, busy, busy]
    s.fault = none ∧ s.refused = false ∧ s.op = some .reset ∧ s.upc ≤ (mprog Config.b2040 .reset s.opnd).length ∧
    PanelResponsive s ∧
    1 ≤ 2 ∧ 4 = ((mprog Config.b2040 .reset s.opnd).length - s.upc + 1) * 2 ∧ PanelResponsiveWithin 4 2 s :=
  ⟨rfl, rfl, rfl, by decide, fun k t h hw => (responsive_waiting k t h hw).imp fun _ => And.right, by decide, rfl,
    fun k t _ h hw => responsive_waiting k t h hw⟩

theorem witness_BusCommandTransaction :
    Instr.busParts (.psr 0x9F#8) = some (.psr, [0x9F#8]) ∧ (command 0 []).fault = none ∧ (command 0 []).op ≠ none ∧
    (∀ k, k = 2 ∨ 4 ≤ k ∧ k < 5 → ((command 0 (List.replicate 6 good)).moveAt k).txFault = false) ∧
    ((command 0 [good, good, faulty]).moveAt 2).txFault = true ∧
    (∀ k, k < 4 → k = 2 ∨ 4 ≤ k → ((command 0 [good, good, good, good, faulty]).moveAt k).txFault = false) ∧
    ((command 0 [good, good, good, good, faulty]).moveAt 4).txFault = true := by
  refine ⟨rfl, rfl, by decide, fun k hk => ?_, rfl, fun k hk _ => ?_, rfl⟩
  · have hk' : k < 6 := by omega
    rw [moveAt_replicate (n := 6) rfl hk']
    rfl
  · interval_cases k <;> rfl

theorem witness_BusCommandFrame : Instr.isHostOp .pon = false ∧ ∃ t, exec .pon (command 0 [good, good, faulty]) = .next t :=
  ⟨rfl, _, rfl⟩

theorem witness_BusCommandIsItsSteps :
    let s := during .idle .cmd (.command (Config.b2040.addr .psr) [0x9F#8]) 0 [good]
    Instr.isHostOp (.psr 0x9F#8) = false ∧ s.fault = none ∧ s.refused = false ∧ s.op = some .cmd ∧
    (mprog Config.b2040 .cmd s.opnd).drop s.upc = commandOps Config.b2040 (.psr 0x9F#8) ++ [] :=
  ⟨rfl, rfl, rfl, rfl, rfl⟩

/-- A block right after creation, whatever its host and panel do. -/
theorem inv_ready (inbox : List Request) (moves : List Move) :
    Inv { State.reset with inbox := inbox, moves := moves } := by
  refine ⟨⟨List.Pairwise.nil, fun _ h => by cases h⟩, fun _ => ?_, fun _ h => by cases h⟩
  constructor <;> simp [State.reset, State.program]

theorem witness_StepKeepsInv :
    (∃ t, step { State.reset with inbox := [⟨0x80000000#32, []⟩], moves := [good] } = .next t) ∧
    Inv { State.reset with inbox := [⟨0x80000000#32, []⟩], moves := [good] } ∧
    Inv { command 3 [good] with csN := .low } := by
  refine ⟨⟨_, rfl⟩, inv_ready _ _, by decide, fun _ => ?_, fun _ h => by cases h⟩
  constructor
  · intro h; cases h
  · intro h; cases h
  · decide
  · decide
  · intro _; exact .inr rfl
  · intro h; cases h
  · decide
  · intro _; exact ⟨[], 0x04#8, [], [], rfl, by decide, by decide⟩
  · intro h; cases h
  · intro o h
    cases h
    exact ⟨0x04#8, [], rfl, by decide⟩

theorem witness_OnlyTheseStTransitions :
    let s : State := { State.reset with inbox := [⟨0x80000000#32, []⟩], moves := [good] }
    Inv s ∧ ∃ t, step s = .next t ∧ t.st ≠ s.st :=
  ⟨inv_ready _ _, _, rfl, by decide⟩

theorem witness_UpcMovesByOne : (command 5 [good]).op = some .cmd ∧ ∃ t, step (command 5 [good]) = .next t :=
  ⟨rfl, _, rfl⟩

theorem witness_FramebufferWritersOnly :
    let s : State := { ready .idle [good] with inbox := [⟨0x11000000#32, []⟩], fb := [(0, 0x00#8)] }
    ∃ t, step s = .next t ∧ t.fb ≠ s.fb :=
  ⟨_, rfl, by decide⟩

theorem witness_FatalExceptionEntry : (∃ t, step (command 2 [faulty]) = .next t ∧ t.fault ≠ none) ∧
    (waiting [late]).fault = none ∧
    (operationStep { vectors with busyTimeout := some 1 } .reset (waiting [late])).fault ≠ none :=
  ⟨⟨_, rfl, by decide⟩, rfl, Option.some_ne_none (⟨.protocolTimeout, 4⟩ : FaultRecord)⟩

theorem witness_BusyReadAtWaitOnly : (command 2 [good]).moves = good :: [] ∧
    ((command 2 [good]).program Config.b2040)[(command 2 [good]).upc]? ≠ some .waitBusy := by decide

theorem witness_DelaysAtLeastTenMs :
    let s := during .resetting .reset .empty 1 [good]
    DelaysLong s.trace ∧ ∃ t, step s = .next t :=
  ⟨fun _ h => absurd h (List.not_mem_nil), _, rfl⟩

theorem witness_HostOperationFrame :
    (∃ t, Instr.isHostOp (.ctCmd 0x50#8 []) = true ∧ exec (.ctCmd 0x50#8 []) (ready .idle [good]) = .next t) ∧
    WritesFramebuffer (.fbWrite 0 0 true) ∧ ¬ WritesFramebuffer .daPush :=
  ⟨⟨_, rfl, rfl⟩, trivial, id⟩

theorem witness_RefusalMarksTheRun :
    step { ready .idle [] with inbox := [⟨0x90000000#32, []⟩] } = .refused .outOfSequence ∧
    ({ ready .idle [] with refused := true } : State).refused = true ∧
    ({ ready .idle [] with refused := true } : State).fault = none ∧
    ∃ t, step (ready .idle [good]) = .next t :=
  ⟨rfl, rfl, rfl, _, rfl⟩

theorem witness_ResponseWords : 4761 < 2 ^ 24 ∧ 16777215 < 2 ^ 24 := by decide

theorem witness_FinalStates : Final (ready .idle [good]) ∧ Held (waiting [busy]) ∧
    ({ command 2 [] with fault := some ⟨.busFault, 2⟩ } : State).fault ≠ none ∧
    ({ ready .idle [] with refused := true } : State).refused = true :=
  ⟨⟨rfl, rfl, rfl⟩, ⟨⟨rfl, rfl⟩, rfl⟩, by decide, rfl⟩

/-- The sample values meet the constraints (G2, G3). -/
theorem vectors_valid : vectors.Valid :=
  { Config.b2040_valid with
    addr_inj := by intro r r'; cases r <;> cases r' <;> decide
    payload_length := by decide
    booster_equal := ⟨0x17#8, rfl⟩
    rst_low := Nat.le_refl _
    rst_settle := Nat.le_refl _ }

/-- The payloads of G3 are documented combinations of the table of G4, and 0x9F names 128 by 296. -/
theorem vectors_flagsValid : vectors.FlagsValid where
  disjoint := by intro r; cases r <;> decide
  documented := fun rj _ b hb => Config.composed_of_mem (fun f hf => by
    obtain ⟨n, -, rfl⟩ := List.mem_map.1 hf
    cases n <;> decide) (List.contains_iff_mem.1 hb)
  valid := by
    have h : ∀ rj ∈ Config.flagBytes, ((vectors.payload rj.1)[rj.2]?).all (vectors.validPayload rj.1) = true := by decide
    intro rj hrj b hb
    simpa [hb] using h rj hrj
  resolution := by intro b hb; cases hb; decide

theorem witness_InitSendsDocumentedFlags : vectors.Valid ∧ vectors.FlagsValid := ⟨vectors_valid, vectors_flagsValid⟩

/-- The byte 0x9F of G3's PSR and the sub-fields of R33 with the table of G4. -/
theorem witness_ComposedReservedBitsZero : Config.Composed (vectors.flagsOf .psr) 0x9F#8 :=
  vectors_flagsValid.documented (.psr, 0) (by decide) _ (by decide)

/-- G4: a reserved bit of PFS or PLL, or an undocumented PLL value, is no valid payload. -/
theorem test_validPayload : vectors.validPayload .pfs 0x31#8 = false ∧ vectors.validPayload .pll 0x38#8 = false ∧
    vectors.validPayload .pll 0x7A#8 = false ∧ vectors.validPayload .btst 0x17#8 = true := by decide

end Sys2Proof.Tests
end

section
/-! SUPPORT. The mark of a refused run (00_scope.md R17, 10_state.md R29): what each operation and each step does to it. -/

namespace Sys2Proof.Machine

open Sys2Proof Sys2Proof.Safety

@[simp] theorem pixelWrite_refused (c : Config) (x y : Int) (b : Bool) (s : State) :
    (pixelWrite c x y b s).refused = s.refused := by
  unfold pixelWrite
  split <;> rfl

@[simp] theorem clearAll_refused (c : Config) (s : State) : (clearAll c s).refused = s.refused := rfl

@[simp] theorem pixelQuery_refused (c : Config) (x y : Int) (s : State) :
    (pixelQuery c x y s).refused = s.refused := by
  unfold pixelQuery
  split <;> rfl

@[simp] theorem operationStep_refused (c : Config) (o : OpKind) (s : State) :
    (operationStep c o s).refused = s.refused := by
  cases h : (mprog c o s.opnd)[s.upc]? with
  | none => rw [operationStep_complete h, complete_refused]
  | some m =>
    obtain ⟨-, -, -, -, hrefused, -⟩ := microOp_frame c m s
    rw [operationStep_microOp h, hrefused]

/-- No host operation that is accepted writes the mark (R29). -/
theorem exec_host_keeps_refused {i : Instr} (hi : i.isHostOp = true) {s t : State} (h : exec i s = .next t) :
    t.refused = s.refused := by
  obtain ⟨-, -, hcases⟩ := exec_host_cases hi h
  rcases hcases with ⟨x, y, b, -, rfl⟩ | ⟨-, rfl⟩ | ⟨x, y, -, rfl⟩ | ⟨o, d, -, -, rfl⟩ | ⟨-, -, rfl⟩
  · exact pixelWrite_refused ..
  · exact clearAll_refused Config.b2040 s
  · exact pixelQuery_refused ..
  · rfl
  · rfl

/-- The mark is bookkeeping of the run: the block's own steps leave it alone (R17, R29). -/
theorem step_next_keeps_refused {s t : State} (h : step s = .next t) : t.refused = s.refused := by
  obtain ⟨-, -, hcases⟩ := step_cases h
  rcases hcases with ⟨o, -, rfl⟩ | ⟨-, rfl⟩ | ⟨-, r, rest, i, -, hdecode, hexec⟩
  · exact operationStep_refused ..
  · rfl
  · have hkept : t.refused = { s with inbox := rest }.refused :=
      exec_host_keeps_refused (decodeRequest_isHostOp hdecode) hexec
    exact hkept

/-- A marked run has no behaviour any more (R17). -/
theorem step_of_marked {s : State} (hr : s.refused = true) (hf : s.fault = none) :
    step s = .refused .runRefused := by
  simp [step, fetch, hf, hr]

theorem runStep_of_step_refused {s : State} {r : Refusal} (h : step s = .refused r) :
    runStep s = s.markRefused := by
  simp [runStep, h]

theorem State.markRefused_of_marked {s : State} (h : s.refused = true) : s.markRefused = s := by
  cases s
  subst h
  rfl

end Sys2Proof.Machine

namespace Sys2Proof.Proofs

open Sys2Proof.Machine Sys2Proof.Safety

/-- Settles O56: a step that answers a next state never writes the mark (`step_next_keeps_refused`);
a marked run is refused at the fetch, and marking it again changes nothing. -/
theorem refusalMarksTheRun : Obligations.RefusalMarksTheRun := by
  refine ⟨fun s r h => runStep_of_step_refused h, fun s hr hf => ?_, fun s t h => step_next_keeps_refused h⟩
  have hstep : step s = .refused .runRefused := step_of_marked hr hf
  exact ⟨hstep, (runStep_of_step_refused hstep).trans (State.markRefused_of_marked hr)⟩

end Sys2Proof.Proofs
end

section
/-! SUPPORT. Chip-select and the reset line along a micro-program (10_state.md R41 (e), (f)): where in a program they are
driven, and what holds of their levels at the next `upc`. -/

namespace Sys2Proof.Machine

open Sys2Proof Sys2Proof.Safety

/-! ## Chip-select -/

/-- Every assertion of chip-select in a list of micro-ops is the first micro-op of a transaction (R140). -/
structure AssertsCsAtStart (ops : List MicroOp) : Prop where
  starts : ∀ k, ops[k]? = some (.cs .low) → ∃ pre r p post, ops = pre ++ xact r p ++ post ∧ pre.length = k

theorem assertsCsAtStart_append {a b : List MicroOp} (ha : AssertsCsAtStart a) (hb : AssertsCsAtStart b) :
    AssertsCsAtStart (a ++ b) := by
  refine ⟨fun k hk => ?_⟩
  rw [List.getElem?_append] at hk
  split at hk
  · obtain ⟨pre, r, p, post, rfl, hlen⟩ := ha.starts k hk
    exact ⟨pre, r, p, post ++ b, by simp, hlen⟩
  · obtain ⟨pre, r, p, post, rfl, hlen⟩ := hb.starts _ hk
    exact ⟨a ++ pre, r, p, post, by simp, by rw [List.length_append]; omega⟩

theorem assertsCsAtStart_xact (r : Byte) (p : List Byte) : AssertsCsAtStart (xact r p) := by
  refine ⟨fun k hk => ?_⟩
  cases k with
  | zero => exact ⟨[], r, p, [], by simp, rfl⟩
  | succ k =>
    have hmem : MicroOp.cs .low ∈ (xact r p).drop 1 := List.mem_of_getElem? hk
    simp [xact] at hmem

theorem assertsCsAtStart_of_not_mem {ops : List MicroOp} (h : .cs .low ∉ ops) : AssertsCsAtStart ops :=
  ⟨fun _ hk => absurd (List.mem_of_getElem? hk) h⟩

/-- Every micro-program asserts chip-select at the start of its transactions only (R126 to R129). -/
theorem assertsCsAtStart_mprog (c : Config) (o : OpKind) (d : Operand) : AssertsCsAtStart (mprog c o d) := by
  have hnil : AssertsCsAtStart [] := assertsCsAtStart_of_not_mem (by simp)
  have hwait : AssertsCsAtStart [.waitBusy] := assertsCsAtStart_of_not_mem (by simp)
  cases o with
  | reset => exact assertsCsAtStart_of_not_mem (by simp [mprog, resetProgram])
  | init =>
    simp only [mprog, initProgram, xactInit, xactBare]
    with_reducible repeat' apply assertsCsAtStart_append
    all_goals simp only [assertsCsAtStart_xact, hwait]
  | sendFrame =>
    cases d with
    | frame bytes =>
      simp only [mprog, sendFrameProgram, xactBare]
      with_reducible repeat' apply assertsCsAtStart_append
      all_goals simp only [assertsCsAtStart_xact, hwait]
    | empty | command => exact hnil
  | cmd =>
    cases d with
    | command reg payload => exact assertsCsAtStart_xact reg payload
    | empty | frame => exact hnil

theorem lt_length_of_insideTransaction {ops : List MicroOp} {k : Nat} (h : InsideTransaction ops k) : k < ops.length := by
  obtain ⟨pre, r, p, post, rfl, -, hlt⟩ := h
  simp only [List.length_append]
  omega

/-- A transaction is left by its release of chip-select and by no other micro-op. -/
theorem insideTransaction_succ {ops : List MicroOp} {k : Nat} (h : InsideTransaction ops k)
    (hk : ops[k]? ≠ some (.cs .high)) : InsideTransaction ops (k + 1) := by
  obtain ⟨pre, r, p, post, rfl, hgt, hlt⟩ := h
  refine ⟨pre, r, p, post, rfl, by omega, ?_⟩
  have hlast : (pre ++ xact r p ++ post)[pre.length + (4 + p.length)]? = some (.cs .high) := by
    simp [xact, Nat.add_comm 4]
  have hne : k ≠ pre.length + (4 + p.length) := by
    rintro rfl
    exact hk hlast
  rw [length_xact] at hlt ⊢
  omega

/-- R41 (e) is kept by every micro-op that completes. -/
theorem insideTransaction_of_csAfter_low {ops : List MicroOp} {k : Nat} {m : MicroOp} {l : Level}
    (hops : AssertsCsAtStart ops) (hm : ops[k]? = some m) (hl : l = .low → InsideTransaction ops k)
    (h : csAfter l [m] = .low) : InsideTransaction ops (k + 1) := by
  have hkeep : csAfter l [m] = l → m ≠ .cs .high → InsideTransaction ops (k + 1) := fun heq hne =>
    insideTransaction_succ (hl (heq.symm.trans h)) (by simpa [hm] using hne)
  cases m with
  | cs l' =>
    cases l' with
    | low =>
      obtain ⟨pre, r, p, post, heq, rfl⟩ := hops.starts k hm
      exact ⟨pre, r, p, post, heq, by omega, by rw [length_xact]; omega⟩
    | high => cases h
  | dc | rst | tx | delay | waitBusy => exact hkeep rfl nofun

/-! ## The reset line -/

@[simp] theorem rst_not_mem_xact (l : Level) (r : Byte) (p : List Byte) : .rst l ∉ xact r p := by
  simp [xact]

/-- Only CT.RESET drives the reset line: low at its first micro-op, high at its third (R126). -/
theorem mprog_rst {c : Config} {o : OpKind} {d : Operand} {k : Nat} {l : Level}
    (h : (mprog c o d)[k]? = some (.rst l)) : o = .reset ∧ (k = 0 ∨ k = 2 ∧ l = .high) := by
  have hmem := List.mem_of_getElem? h
  cases o with
  | reset =>
    match k with
    | 0 => exact ⟨rfl, .inl rfl⟩
    | 2 => cases h; exact ⟨rfl, .inr ⟨rfl, rfl⟩⟩
    | 1 | 3 | 4 | _ + 5 => cases h
  | init => simp [mprog, initProgram, xactInit, xactBare] at hmem
  | sendFrame => cases d <;> simp [mprog, sendFrameProgram, xactBare] at hmem
  | cmd => cases d <;> simp [mprog] at hmem

/-- R41 (f) is kept by every micro-op that completes. -/
theorem reset_of_rstAfter_low {c : Config} {o : OpKind} {d : Operand} {k : Nat} {m : MicroOp} {l : Level}
    (hm : (mprog c o d)[k]? = some m) (hl : l = .low → o = .reset ∧ 1 ≤ k ∧ k ≤ 2)
    (h : rstAfter l [m] = .low) : o = .reset ∧ 1 ≤ k + 1 ∧ k + 1 ≤ 2 := by
  have hkeep : rstAfter l [m] = l → (∀ l', m ≠ .rst l') → o = .reset ∧ 1 ≤ k + 1 ∧ k + 1 ≤ 2 := fun heq hne => by
    obtain ⟨rfl, hlo, hhi⟩ := hl (heq.symm.trans h)
    have hk : k ≠ 2 := by
      rintro rfl
      exact hne .high (Option.some.inj hm).symm
    exact ⟨rfl, by omega, by omega⟩
  cases m with
  | rst l' =>
    obtain ⟨ho, rfl | ⟨-, rfl⟩⟩ := mprog_rst hm
    · exact ⟨ho, by omega, by omega⟩
    · cases h
  | cs | dc | tx | delay | waitBusy => exact hkeep rfl nofun

end Sys2Proof.Machine
end

section
/-! SUPPORT. What a request that is taken can do to the block, said once, and what the operands of a decoded request are
(30_encoding.md R72, R75; 10_state.md R24, R30). -/

namespace Sys2Proof.Machine

open Sys2Proof Sys2Proof.Safety

/-- A pixel write touches the framebuffer and the trace only (R100, R161). -/
theorem pixelWrite_eq (c : Config) (x y : Int) (b : Bool) (s : State) :
    pixelWrite c x y b s = { s with
      fb := if inBounds c x y then writePixel c s.fb x y b else s.fb
      trace := (pixelWrite c x y b s).trace } := by
  unfold pixelWrite
  split <;> rfl

/-- A clear touches the framebuffer and the trace only (R101). -/
theorem clearAll_eq (c : Config) (s : State) :
    clearAll c s = { s with fb := memZero c, trace := (clearAll c s).trace } := rfl

/-- A query touches the trace only (R102, R161). -/
theorem pixelQuery_eq (c : Config) (x y : Int) (s : State) :
    pixelQuery c x y s = { s with trace := (pixelQuery c x y s).trace } := by
  unfold pixelQuery
  split <;> rfl

/-- Everything a host operation that answers a next state does to the block: a framebuffer operation writes the store, in its
canonical form, and the trace; a controller request is accepted; CT.OFF powers the block off. -/
theorem exec_host_effect {i : Instr} (hi : i.isHostOp = true) {s t : State} (h : exec i s = .next t) :
    s.op = none ∧ s.fault = none ∧
    ((∃ fb tr, t = { s with fb := fb, trace := tr }.elapse 1 ∧ (s.fb.wf Config.b2040 → fb.wf Config.b2040) ∧
        (fb = s.fb ∨ WritesFramebuffer i)) ∨
     (∃ o d, started s i = some (o, d) ∧ o.allowed s.st = true ∧
        t = { s with st := o.stAccepted s.st, op := some o, opnd := d, upc := 0 }.elapse 1) ∨
     (s.st = .idle ∧ t = ({ s with st := .poweredOff }.respond .ok).elapse 1)) := by
  obtain ⟨hop, hfault, hcases⟩ := exec_host_cases hi h
  refine ⟨hop, hfault, ?_⟩
  rcases hcases with ⟨x, y, b, hwrite, rfl⟩ | ⟨hclear, rfl⟩ | ⟨x, y, -, rfl⟩ | haccept | ⟨-, hidle, rfl⟩
  · refine .inl ⟨_, _, by rw [pixelWrite_eq], fun hwf => ?_, .inr ?_⟩
    · split
      · exact Memory.wf_writePixel Config.b2040_valid hwf ‹_› b
      · exact hwf
    · obtain rfl | ⟨col, rfl, -⟩ := hwrite <;> trivial
  · refine .inl ⟨_, _, by rw [clearAll_eq], fun _ => Memory.wf_memZero Config.b2040, .inr ?_⟩
    obtain rfl | rfl := hclear <;> trivial
  · exact .inl ⟨s.fb, _, by rw [pixelQuery_eq], id, .inl rfl⟩
  · exact .inr (.inl haccept)
  · exact .inr (.inr ⟨hidle, rfl⟩)

/-- A decoded request has a frame of `FB_BYTES` bytes, and a payload whose length fits 16 bits (R74, R75). -/
theorem decodeRequest_stream {c : Config} {w : Word} {stream : List Byte} {i : Instr}
    (h : decodeRequest c w stream = .instr i) :
    (∀ frame, i = .ctSendframe frame → frame.length = c.fbBytes) ∧
    (∀ reg payload, i = .ctCmd reg payload → payload.length < 65536) := by
  unfold decodeRequest checkReserved withStream at h
  repeat' split at h
  all_goals cases h
  all_goals refine ⟨fun _ he => ?_, fun _ _ he => ?_⟩ <;> cases he
  · assumption
  · rename_i hlen
    rw [hlen]
    exact BitVec.isLt _

/-- The operation that a decoded request starts has its own operands (R24, R72, R111). -/
theorem operandOf_started {s : State} {w : Word} {stream : List Byte} {i : Instr} {o : OpKind} {d : Operand}
    (hd : decodeRequest Config.b2040 w stream = .instr i) (h : started s i = some (o, d)) : OperandOf o d := by
  obtain ⟨hframe, hpayload⟩ := decodeRequest_stream hd
  cases i with
  | daPush => cases h; exact ⟨_, rfl, memFrame_length ..⟩
  | ctReset | ctInit => cases h; rfl
  | ctSendframe frame => cases h; exact ⟨frame, rfl, hframe frame rfl⟩
  | ctCmd reg payload => cases h; exact ⟨reg, payload, rfl, hpayload reg payload rfl⟩
  | _ => cases h

end Sys2Proof.Machine
end

section
/-! SUPPORT. The invariant of the machine (10_state.md R41): each thing a step can do keeps it. -/

namespace Sys2Proof.Machine

open Sys2Proof Sys2Proof.Safety

/-! ## What (a) to (f) say of a block with no operation -/

/-- (a) to (f) read the controller's registers and two of the lines only. -/
theorem healthy_congr {s t : State} (h : Healthy s) (hst : t.st = s.st) (hop : t.op = s.op) (hopnd : t.opnd = s.opnd)
    (hupc : t.upc = s.upc) (hcs : t.csN = s.csN) (hrst : t.rstN = s.rstN) : Healthy t := by
  have hprog : t.program Config.b2040 = s.program Config.b2040 := by simp only [State.program, hop, hopnd]
  constructor <;> simp only [hst, hop, hopnd, hupc, hcs, hrst, hprog]
  exacts [h.rest, h.op_reset, h.op_init, h.op_sendFrame, h.st_quiet, h.st_off, h.upc_range, h.cs_low, h.rst_low, h.operands]

/-- A block at rest meets (a) to (f) if its latches and lines are at rest and `st` is of no operation. -/
theorem healthy_of_rest {s : State} (hop : s.op = none) (hopnd : s.opnd = .empty) (hupc : s.upc = 0)
    (hcs : s.csN = .high) (hrst : s.rstN = .high) (hinit : s.st ≠ .initializing) (hsend : s.st ≠ .refreshing) :
    Healthy s := by
  constructor <;> simp_all

/-- Without CT.RESET in progress the reset line is high (R41 (f)). -/
theorem rstN_high_of_healthy {s : State} (h : Healthy s) (hop : s.op ≠ some .reset) : s.rstN = .high := by
  cases hrst : s.rstN with
  | high => rfl
  | low => exact absurd (h.rst_low hrst).1 hop

/-- `st` is the one of CT.INIT or of a transmission during that operation only (R41 (b)). -/
theorem st_of_healthy_not_busy {s : State} (h : Healthy s) (hinit : s.op ≠ some .init) (hsend : s.op ≠ some .sendFrame) :
    s.st ≠ .initializing ∧ s.st ≠ .refreshing :=
  ⟨fun hst => hinit (h.op_init.2 hst), fun hst => hsend (h.op_sendFrame.2 hst)⟩

/-- A block at rest has its latches and lines at rest, and `st` is of no operation. -/
theorem rest_of_healthy {s : State} (h : Healthy s) (hop : s.op = none) :
    s.opnd = .empty ∧ s.upc = 0 ∧ s.csN = .high ∧ s.rstN = .high ∧ s.st ≠ .initializing ∧ s.st ≠ .refreshing := by
  obtain ⟨hupc, hopnd, hcs⟩ := h.rest hop
  have hrst := rstN_high_of_healthy h (by simp [hop])
  have hst := st_of_healthy_not_busy h (by simp [hop]) (by simp [hop])
  exact ⟨hopnd, hupc, hcs, hrst, hst⟩

/-! ## (a) to (f) along the steps -/

theorem program_of_op {c : Config} {s : State} {o : OpKind} (ho : s.op = some o) :
    s.program c = mprog c o s.opnd := by
  simp [State.program, ho]

/-- A micro-op that completes keeps (a) to (f) (R123, R124, R125, R131). -/
theorem healthy_afterMicroOp {s : State} {o : OpKind} {m : MicroOp} (h : Healthy s) (ho : s.op = some o)
    (hm : (mprog Config.b2040 o s.opnd)[s.upc]? = some m) : Healthy (afterMicroOps [m] s) := by
  have hprog : s.program Config.b2040 = mprog Config.b2040 o s.opnd := program_of_op ho
  have hprog' : (afterMicroOps [m] s).program Config.b2040 = mprog Config.b2040 o s.opnd := program_of_op ho
  refine { h with rest := fun hnone => ?_, upc_range := ?_, cs_low := fun hcs => ?_, rst_low := fun hrst => ?_ }
  · have hnone' : s.op = none := hnone
    simp [ho] at hnone'
  · rw [hprog']
    exact (List.getElem?_eq_some_iff.1 hm).1
  · rw [hprog']
    refine insideTransaction_of_csAfter_low (assertsCsAtStart_mprog ..) hm (fun hlow => ?_) hcs
    exact hprog ▸ h.cs_low hlow
  · have hreset := reset_of_rstAfter_low hm (fun hlow => ?_) hrst
    · exact hreset.imp_left fun heq => ho.trans (congrArg some heq)
    · exact (h.rst_low hlow).imp_left fun heq => Option.some.inj (ho.symm.trans heq)

/-- Past its last micro-op an operation has left every transaction and released the reset line (R41 (e), (f)). -/
theorem lines_high_of_program_done {s : State} {o : OpKind} (h : Healthy s) (ho : s.op = some o)
    (hend : (mprog Config.b2040 o s.opnd)[s.upc]? = none) : s.csN = .high ∧ s.rstN = .high := by
  rw [List.getElem?_eq_none_iff] at hend
  constructor
  · cases hcs : s.csN with
    | high => rfl
    | low =>
      have hlt := lt_length_of_insideTransaction (h.cs_low hcs)
      rw [program_of_op ho] at hlt
      omega
  · cases hrst : s.rstN with
    | high => rfl
    | low =>
      obtain ⟨hreset, -, hle⟩ := h.rst_low hrst
      obtain rfl : o = .reset := Option.some.inj (ho.symm.trans hreset)
      have hlen : (mprog Config.b2040 .reset s.opnd).length = 5 := rfl
      omega

/-- `st` after completion is of no operation (R23). -/
theorem stCompleted_ne {s : State} {o : OpKind} (h : Healthy s) (ho : s.op = some o) :
    o.stCompleted s.st ≠ .initializing ∧ o.stCompleted s.st ≠ .refreshing := by
  cases o with
  | cmd => exact st_of_healthy_not_busy h (by simp [ho]) (by simp [ho])
  | reset | init | sendFrame => exact ⟨nofun, nofun⟩

/-- Completion keeps (a) to (f) (R121). -/
theorem healthy_complete {s : State} {o : OpKind} (h : Healthy s) (ho : s.op = some o)
    (hend : (mprog Config.b2040 o s.opnd)[s.upc]? = none) : Healthy (complete o s) := by
  obtain ⟨hcs, hrst⟩ := lines_high_of_program_done h ho hend
  obtain ⟨hinit, hsend⟩ := stCompleted_ne h ho
  exact healthy_of_rest rfl rfl rfl hcs hrst hinit hsend

/-- Acceptance keeps (a) to (f) (R23, R120). -/
theorem healthy_accepted {s : State} {o : OpKind} {d : Operand} (h : Healthy s) (hop : s.op = none)
    (hallowed : o.allowed s.st = true) (hd : OperandOf o d) :
    Healthy { s with st := o.stAccepted s.st, op := some o, opnd := d, upc := 0 } := by
  obtain ⟨-, -, hcs, hrst, hinit, hsend⟩ := rest_of_healthy h hop
  refine { rest := nofun, op_reset := ?_, op_init := ?_, op_sendFrame := ?_, st_quiet := ?_, st_off := ?_,
           upc_range := Nat.zero_le _
           cs_low := fun hlow => absurd (hcs.symm.trans hlow) nofun
           rst_low := fun hlow => absurd (hrst.symm.trans hlow) nofun
           operands := fun o' ho' => Option.some.inj ho' ▸ hd } <;>
    cases o <;> simp_all [OpKind.stAccepted, OpKind.allowed]

/-- CT.OFF keeps (a) to (f) (R130). -/
theorem healthy_poweredOff {s : State} (h : Healthy s) (hop : s.op = none) : Healthy { s with st := .poweredOff } := by
  obtain ⟨hopnd, hupc, hcs, hrst, -, -⟩ := rest_of_healthy h hop
  exact healthy_of_rest hop hopnd hupc hcs hrst nofun nofun

/-! ## The invariant along the steps -/

/-- A state without a fault meets the invariant if its store is canonical and (a) to (f) hold. -/
theorem inv_of_healthy {s : State} (hfault : s.fault = none) (hwf : s.fb.wf Config.b2040) (h : Healthy s) : Inv s :=
  ⟨hwf, fun _ => h, fun r hr => by simp [hfault] at hr⟩

/-- The entry of BusFault at a `TX` leaves a record of it (R162, R166). -/
theorem inv_raiseFatal_busFault {s : State} {o : OpKind} {b : Byte} (hinv : Inv s) (ho : s.op = some o)
    (hm : (mprog Config.b2040 o s.opnd)[s.upc]? = some (.tx b)) : Inv ((raiseFatal .busFault s).elapse 1) := by
  refine ⟨hinv.memory, nofun, fun r hr => ?_⟩
  obtain rfl : ⟨.busFault, s.upc⟩ = r := Option.some.inj hr
  have hprog : ((raiseFatal .busFault s).elapse 1).program Config.b2040 = mprog Config.b2040 o s.opnd := program_of_op ho
  exact ⟨rfl, by simp [ho], b, hprog ▸ hm⟩

/-- The step of an operation in progress keeps the invariant. This machine takes no ProtocolTimeout: it has no
`BUSY_TIMEOUT` (log 9). -/
theorem inv_operationStep {s : State} {o : OpKind} (hinv : Inv s) (hfault : s.fault = none) (ho : s.op = some o) :
    Inv (operationStep Config.b2040 o s) := by
  have h := hinv.healthy hfault
  rcases operationStep_cases Config.b2040 o s with
    ⟨m, hm, -, heq⟩ | ⟨-, -, -, heq⟩ | ⟨b, hm, -, heq⟩ | ⟨-, -, htimeout, -⟩ | ⟨hend, heq⟩
  · rw [heq]
    exact inv_of_healthy hfault hinv.memory (healthy_afterMicroOp h ho hm)
  · rw [heq]
    exact inv_of_healthy hfault hinv.memory (healthy_congr h rfl rfl rfl rfl rfl rfl)
  · rw [heq]
    exact inv_raiseFatal_busFault hinv ho hm
  · simp [Config.b2040] at htimeout
  · rw [heq]
    exact inv_of_healthy hfault hinv.memory (healthy_complete h ho hend)

/-- A request that is taken keeps the invariant. -/
theorem inv_exec_request {s t : State} {w : Word} {stream : List Byte} {i : Instr} (hinv : Inv s)
    (hdecode : decodeRequest Config.b2040 w stream = .instr i) (hexec : exec i s = .next t) : Inv t := by
  obtain ⟨hop, hfault, heffect⟩ := exec_host_effect (decodeRequest_isHostOp hdecode) hexec
  have h := hinv.healthy hfault
  rcases heffect with ⟨fb, tr, rfl, hwf, -⟩ | ⟨o, d, hstarted, hallowed, rfl⟩ | ⟨-, rfl⟩
  · exact inv_of_healthy hfault (hwf hinv.memory) (healthy_congr h rfl rfl rfl rfl rfl rfl)
  · have haccepted := healthy_accepted h hop hallowed (operandOf_started hdecode hstarted)
    exact inv_of_healthy hfault hinv.memory (healthy_congr haccepted rfl rfl rfl rfl rfl rfl)
  · have hoff := healthy_poweredOff h hop
    exact inv_of_healthy hfault hinv.memory (healthy_congr hoff rfl rfl rfl rfl rfl rfl)

/-- Taking a request off the port, and the environment's time, are not the invariant's business. -/
theorem inv_congr_port {s : State} (hinv : Inv s) (hfault : s.fault = none) (inbox : List Request) (moves : List Move)
    (tick : Nat) : Inv { s with inbox := inbox, moves := moves, tick := tick } :=
  inv_of_healthy hfault hinv.memory (healthy_congr (hinv.healthy hfault) rfl rfl rfl rfl rfl rfl)

end Sys2Proof.Machine

namespace Sys2Proof.Proofs

open Sys2Proof.Machine Sys2Proof.Safety

/-- Settles O48: along what a step can be (`step_cases`), the operation in progress (`inv_operationStep`), a waiting block,
or a request that is taken (`inv_exec_request`). -/
theorem stepKeepsInv : Obligations.StepKeepsInv := by
  intro s t hinv hstep
  obtain ⟨hfault, -, hcases⟩ := step_cases hstep
  rcases hcases with ⟨o, ho, rfl⟩ | ⟨-, rfl⟩ | ⟨-, r, rest, i, -, hdecode, hexec⟩
  · exact inv_operationStep hinv hfault ho
  · exact inv_congr_port hinv hfault ..
  · exact inv_exec_request (inv_congr_port hinv hfault rest s.moves s.tick) hdecode hexec

/-- Settles O47: after creation the block is at rest and its store lists no byte (R43). -/
theorem invAtReset : Obligations.InvAtReset :=
  inv_of_healthy rfl ⟨.nil, nofun⟩ (healthy_of_rest rfl rfl rfl rfl rfl nofun nofun)

end Sys2Proof.Proofs
end

section
/-! The steps of the machine as a whole (10_state.md R20 to R30, R43): the transitions of `st` and of `upc`, the writers of the
framebuffer, the run of an operation to its end. -/

namespace Sys2Proof.Machine

open Sys2Proof Sys2Proof.Safety

/-- An operation in progress writes `st` at its completion only (R23). -/
theorem operationStep_st {c : Config} {o : OpKind} {s : State} (hne : (operationStep c o s).st ≠ s.st) :
    operationStep c o s = complete o s := by
  cases h : (mprog c o s.opnd)[s.upc]? with
  | none => exact operationStep_complete h
  | some m =>
    rw [operationStep_microOp h] at hne
    obtain ⟨hst, -⟩ := microOp_frame c m s
    exact absurd hst hne

/-- No operation in progress writes the framebuffer (R30). -/
theorem operationStep_fb (c : Config) (o : OpKind) (s : State) : (operationStep c o s).fb = s.fb := by
  cases h : (mprog c o s.opnd)[s.upc]? with
  | none => rw [operationStep_complete h, complete_fb]
  | some m =>
    obtain ⟨-, -, -, hfb, -⟩ := microOp_frame c m s
    rw [operationStep_microOp h, hfb]

/-- A block whose operation has no micro-op left completes it (R121). -/
theorem step_complete {s : State} {o : OpKind} (hf : s.fault = none) (hr : s.refused = false) (ho : s.op = some o)
    (hend : (mprog Config.b2040 o s.opnd)[s.upc]? = none) : step s = .next (complete o s) := by
  rw [step_operation hf hr ho, operationStep_complete hend]

/-- An operation in progress whose remaining micro-ops the environment lets complete answers after them and one step more
(R25, R61, R121). -/
theorem run_operation {s : State} {o : OpKind} (hf : s.fault = none) (hr : s.refused = false) (ho : s.op = some o)
    (hupc : s.upc ≤ (mprog Config.b2040 o s.opnd).length)
    (hlets : ∀ k m, (mprog Config.b2040 o s.opnd)[s.upc + k]? = some m → Lets (s.moveAt k) m) :
    run ((mprog Config.b2040 o s.opnd).length - s.upc + 1) s =
      .next (complete o (afterMicroOps ((mprog Config.b2040 o s.opnd).drop s.upc) s)) := by
  have hrun := run_microOps hf hr ho (List.append_nil _).symm fun k m hk => hlets k m (by simpa using hk)
  have hend : (mprog Config.b2040 o s.opnd)[s.upc + ((mprog Config.b2040 o s.opnd).drop s.upc).length]? = none := by
    rw [List.getElem?_eq_none_iff, List.length_drop]
    omega
  have hdone := step_complete (s := afterMicroOps ((mprog Config.b2040 o s.opnd).drop s.upc) s) hf hr ho hend
  rw [← List.length_drop, run_add hrun, run_succ hdone, run_zero]

end Sys2Proof.Machine

namespace Sys2Proof.Proofs

open Sys2Proof.Machine Sys2Proof.Safety

/-- Settles O35: the remaining micro-ops run one a step (`run_microOps`), and past the last the operation completes. -/
theorem operationRunsToCompletion : Obligations.OperationRunsToCompletion := by
  intro s o hf hr ho hupc hlets
  refine ⟨_, run_operation hf hr ho hupc hlets, ?_⟩
  simp only [complete, afterMicroOps, State.respond, State.emit, State.elapse, List.length_drop, List.drop_drop, Nat.add_assoc]

/-- Settles O49: `st` is written at a completion (`operationStep_st`), where the operation tells its old value (R41 (b)), at an
acceptance, where the table allows one old value, and by CT.OFF. -/
theorem onlyTheseStTransitions : Obligations.OnlyTheseStTransitions := by
  intro s t hinv hstep hne
  obtain ⟨hfault, -, hcases⟩ := step_cases hstep
  have h := hinv.healthy hfault
  rcases hcases with ⟨o, ho, rfl⟩ | ⟨-, rfl⟩ | ⟨hop, r, rest, i, -, hdecode, hexec⟩
  · have hdone := operationStep_st hne
    rw [hdone] at hne ⊢
    cases o with
    | reset => exact absurd (h.op_reset ho).symm hne
    | init => exact .inr (.inr (.inl ⟨h.op_init.1 ho, rfl, ho, rfl⟩))
    | sendFrame => exact .inr (.inr (.inr (.inr (.inl ⟨h.op_sendFrame.1 ho, rfl, ho, rfl⟩))))
    | cmd => exact absurd rfl hne
  · exact absurd rfl hne
  · obtain ⟨-, -, heffect⟩ := exec_host_effect (decodeRequest_isHostOp hdecode) hexec
    rcases heffect with ⟨fb, tr, rfl, -, -⟩ | ⟨o, d, -, hallowed, rfl⟩ | ⟨hidle, rfl⟩
    · exact absurd rfl hne
    · cases o with
      | reset => exact .inl ⟨eq_of_beq hallowed, rfl, hop, rfl⟩
      | init => exact .inr (.inl ⟨eq_of_beq hallowed, rfl, hop, rfl⟩)
      | sendFrame => exact .inr (.inr (.inr (.inl ⟨eq_of_beq hallowed, rfl, hop, rfl⟩)))
      | cmd => exact absurd rfl hne
    · exact .inr (.inr (.inr (.inr (.inr ⟨hidle, rfl, hop, hop⟩))))

/-- Settles O50: each thing a step of an operation in progress can do (`operationStep_cases`) moves `upc` in its own way. -/
theorem upcMovesByOne : Obligations.UpcMovesByOne := by
  intro s t o ho hstep
  obtain ⟨hfault, hrefused, -⟩ := step_cases hstep
  rw [step_operation hfault hrefused ho, Host.Outcome.next.injEq] at hstep
  subst hstep
  rcases operationStep_cases Config.b2040 o s with
    ⟨m, -, -, heq⟩ | ⟨hwait, -, -, heq⟩ | ⟨b, -, -, heq⟩ | ⟨-, -, -, heq⟩ | ⟨hend, heq⟩ <;> rw [heq]
  · exact .inl ⟨rfl, ho, hfault⟩
  · exact .inr (.inl ⟨rfl, ho, rfl, hfault, hwait⟩)
  · exact .inr (.inr (.inl ⟨rfl, ho, nofun⟩))
  · exact .inr (.inr (.inl ⟨rfl, ho, nofun⟩))
  · exact .inr (.inr (.inr ⟨rfl, rfl, hend⟩))

/-- Settles O51: neither an operation in progress (`operationStep_fb`) nor a waiting block writes the framebuffer, and of the
requests only the writers do (`exec_host_effect`). -/
theorem framebufferWritersOnly : Obligations.FramebufferWritersOnly := by
  intro s t hstep hne
  obtain ⟨-, -, hcases⟩ := step_cases hstep
  rcases hcases with ⟨o, -, rfl⟩ | ⟨-, rfl⟩ | ⟨hop, r, rest, i, hinbox, hdecode, hexec⟩
  · exact absurd (operationStep_fb ..) hne
  · exact absurd rfl hne
  · obtain ⟨-, -, heffect⟩ := exec_host_effect (decodeRequest_isHostOp hdecode) hexec
    rcases heffect with ⟨fb, tr, rfl, -, hfb⟩ | ⟨o, d, -, -, rfl⟩ | ⟨-, rfl⟩
    · exact ⟨hop, r, rest, i, hinbox, hdecode, hfb.resolve_left hne⟩
    · exact absurd rfl hne
    · exact absurd rfl hne

/-- Settles O7: the block fetches its operation, and the operation the micro-op at `upc`. -/
theorem stepRunsMicroOp : Obligations.StepRunsMicroOp := by
  intro s o m hf hr ho hm
  rw [step_operation hf hr ho, operationStep_microOp hm]

/-- Settles O46: the values R43 gives each register; a store that lists no byte reads as the content at creation. -/
theorem resetState : Obligations.ResetState :=
  ⟨rfl, rfl, rfl, rfl, rfl, rfl, rfl, rfl, rfl, rfl, fun _ => rfl⟩

end Sys2Proof.Proofs
end

section
/-! SUPPORT. The busy line at a step (10_state.md R26): what a step does when only the level of the line is another. -/

namespace Sys2Proof.Machine

open Sys2Proof Sys2Proof.Safety

/-- The state in which the busy line has the level `b` at this step, where the step's move is listed. -/
def State.setBusy (b : Bool) (s : State) : State :=
  { s with moves := s.moves.modifyHead fun mv => { mv with busy := b } }

variable (b : Bool) (s : State)

/-- The line's level at this step is gone with the step. -/
@[simp] theorem State.elapse_setBusy : (s.setBusy b).elapse 1 = s.elapse 1 := by
  simp [State.setBusy, State.elapse]

@[simp] theorem State.setBusy_txFault : (s.setBusy b).move.txFault = s.move.txFault := by
  cases h : s.moves <;> simp [State.move, State.moveAt, State.setBusy, h]

@[simp] theorem State.setBusy_avail : (s.setBusy b).move.avail = s.move.avail := by
  cases h : s.moves <;> simp [State.move, State.moveAt, State.setBusy, h]

@[simp] theorem State.setBusy_overrun : (s.setBusy b).move.overrun = s.move.overrun := by
  cases h : s.moves <;> simp [State.move, State.moveAt, State.setBusy, h]

/-! ## The operation in progress -/

theorem transmit_setBusy (v : Byte) : transmit v (s.setBusy b) = (transmit v s).setBusy b := by
  unfold transmit
  rw [State.setBusy_txFault]
  split <;> rfl

/-- A micro-op that is no busy wait does not read the line (R123, R124, R131). -/
theorem microOp_setBusy (c : Config) {m : MicroOp} (hm : m ≠ .waitBusy) :
    microOp c m (s.setBusy b) = microOp c m s := by
  cases m with
  | cs l => exact State.elapse_setBusy b (s.driveCs l).nextMicroOp
  | dc l => exact State.elapse_setBusy b (s.driveDc l).nextMicroOp
  | rst l => exact State.elapse_setBusy b (s.driveRst l).nextMicroOp
  | tx v =>
    simp only [microOp]
    rw [transmit_setBusy, State.elapse_setBusy]
  | delay tmin =>
    simp only [microOp]
    rw [State.setBusy_overrun]
    exact State.elapse_setBusy b (s.emit (.delay (tmin + s.move.overrun))).nextMicroOp
  | waitBusy => exact absurd rfl hm

theorem operationStep_setBusy (c : Config) (o : OpKind) (h : (mprog c o s.opnd)[s.upc]? ≠ some .waitBusy) :
    operationStep c o (s.setBusy b) = operationStep c o s := by
  cases hm : (mprog c o s.opnd)[s.upc]? with
  | none =>
    rw [operationStep_complete (s := s.setBusy b) hm, operationStep_complete hm]
    exact State.elapse_setBusy b ({ s with st := o.stCompleted s.st, op := none, opnd := .empty, upc := 0 }.respond .ok)
  | some m =>
    rw [operationStep_microOp (s := s.setBusy b) hm, operationStep_microOp hm]
    exact microOp_setBusy b s c fun hwait => h (hm.trans (congrArg some hwait))

/-! ## Requests -/

theorem pixelWrite_setBusy (c : Config) (x y : Int) (v : Bool) :
    pixelWrite c x y v (s.setBusy b) = (pixelWrite c x y v s).setBusy b := by
  unfold pixelWrite
  split <;> rfl

theorem clearAll_setBusy (c : Config) : clearAll c (s.setBusy b) = (clearAll c s).setBusy b := rfl

theorem pixelQuery_setBusy (c : Config) (x y : Int) :
    pixelQuery c x y (s.setBusy b) = (pixelQuery c x y s).setBusy b := by
  unfold pixelQuery
  rw [State.setBusy_avail]
  split <;> rfl

theorem immediate_setBusy {f : State → State} (hf : f (s.setBusy b) = (f s).setBusy b) :
    immediate f (s.setBusy b) = immediate f s := by
  unfold immediate
  rw [hf, State.elapse_setBusy]
  rfl

theorem accept_setBusy (o : OpKind) (d : Operand) : accept o d (s.setBusy b) = accept o d s := by
  have helapse := State.elapse_setBusy b { s with st := o.stAccepted s.st, op := some o, opnd := d, upc := 0 }
  unfold accept
  rw [← helapse]
  rfl

theorem execCtOff_setBusy : execCtOff (s.setBusy b) = execCtOff s := by
  have helapse := State.elapse_setBusy b ({ s with st := .poweredOff }.respond .ok)
  unfold execCtOff
  rw [← helapse]
  rfl

/-- No host operation reads the line when its request is taken (R26). -/
theorem exec_host_setBusy {i : Instr} (hi : i.isHostOp = true) : exec i (s.setBusy b) = exec i s := by
  cases i with
  | fbWrite | daPixel => exact immediate_setBusy b s (pixelWrite_setBusy ..)
  | fbQuery => exact immediate_setBusy b s (pixelQuery_setBusy ..)
  | fbClear | daClearbuf => exact immediate_setBusy b s (clearAll_setBusy ..)
  | daPush | ctReset | ctInit | ctSendframe | ctCmd => exact accept_setBusy ..
  | ctOff => exact execCtOff_setBusy b s
  | _ => exact absurd hi (by simp [Instr.isHostOp, Instr.busParts])

/-! ## The step -/

variable {b s}

theorem op_of_fetch {c : Config} {o : OpKind} (h : fetch c s = .operation o) : s.op = some o := by
  unfold fetch fetchRequest at h
  repeat' split at h
  all_goals cases h
  assumption

theorem isHostOp_of_fetch {c : Config} {i : Instr} {rest : List Request} (h : fetch c s = .request i rest) :
    i.isHostOp = true := by
  unfold fetch fetchRequest at h
  repeat' split at h
  all_goals cases h
  exact decodeRequest_isHostOp ‹_›

/-- A step at no busy wait does not read the line: what the block finds to do is the same (`fetch` reads no input), and so is
what it does. -/
theorem step_setBusy (hwait : (s.program Config.b2040)[s.upc]? ≠ some .waitBusy) : step (s.setBusy b) = step s := by
  have hfetch : fetch Config.b2040 (s.setBusy b) = fetch Config.b2040 s := rfl
  unfold step
  rw [hfetch]
  cases h : fetch Config.b2040 s with
  | operation o =>
    rw [program_of_op (op_of_fetch h)] at hwait
    exact congrArg _ (operationStep_setBusy b s Config.b2040 o hwait)
  | waiting => exact congrArg _ (State.elapse_setBusy b s)
  | request i rest => exact exec_host_setBusy b { s with inbox := rest } (isHostOp_of_fetch h)
  | frozen | refusedRun | illegal => rfl

end Sys2Proof.Machine

namespace Sys2Proof.Proofs

open Sys2Proof.Machine Sys2Proof.Safety

/-- Settles O53: `step_setBusy`. -/
theorem busyReadAtWaitOnly : Obligations.BusyReadAtWaitOnly := by
  intro s mv mvs b hmoves hwait
  have hset : { s with moves := { mv with busy := b } :: mvs } = s.setBusy b := by simp [State.setBusy, hmoves]
  rw [hset, step_setBusy hwait]

end Sys2Proof.Proofs
end

section
/-! SUPPORT. ConfigFlags bytes (10_state.md R32 to R38): what a composed byte has inside and outside its sub-fields, and where
CT.INIT sends the ConfigFlags bytes of its payloads (42_controller_ops.md R127). -/

namespace Sys2Proof

open Sys2Proof.Machine

/-! ## Bytes inside masks -/

theorem inside_mask_iff {v m : Byte} : v &&& ~~~m = 0#8 ↔ ∀ i (hi : i < 8), v[i] = true → m[i] = true := by
  simp [BitVec.eq_of_getElem_eq_iff]

theorem disjoint_mask_iff {v m : Byte} : v &&& m = 0#8 ↔ ∀ i (hi : i < 8), v[i] = true → m[i] = false := by
  simp [BitVec.eq_of_getElem_eq_iff]

/-- Two bytes inside two masks, together, are inside the two masks together. -/
theorem or_inside {v p m u : Byte} (hv : v &&& ~~~m = 0#8) (hp : p &&& ~~~u = 0#8) :
    (v ||| p) &&& ~~~(m ||| u) = 0#8 := by
  rw [inside_mask_iff] at *
  intro i hi hbit
  rw [BitVec.getElem_or, Bool.or_eq_true] at *
  exact hbit.imp (hv i hi) (hp i hi)

/-- A byte inside a mask has no bit of a mask disjoint from it. -/
theorem disjoint_of_inside {v m n : Byte} (hv : v &&& ~~~m = 0#8) (hmn : m &&& n = 0#8) : v &&& n = 0#8 := by
  rw [inside_mask_iff] at hv
  rw [disjoint_mask_iff] at *
  exact fun i hi hbit => hmn i hi (hv i hi hbit)

theorem and_mask_of_inside {v m : Byte} (hv : v &&& ~~~m = 0#8) : v &&& m = v := by
  rw [inside_mask_iff] at hv
  ext i hi
  simpa using hv i hi

/-! ## Composed bytes -/

theorem Config.usedBits_cons (f : SubField) (fs : List SubField) :
    Config.usedBits (f :: fs) = f.mask ||| Config.usedBits fs := rfl

/-- A composed byte has every bit outside the masks zero (R32). -/
theorem Config.Composed.reserved_zero {fields : List SubField} {p : Byte} (h : Config.Composed fields p) :
    p &&& ~~~Config.usedBits fields = 0#8 := by
  induction h with
  | nil => decide
  | cons _ hinside _ ih => exact or_inside hinside ih

/-- A mask disjoint from each sub-field's is disjoint from all their bits. -/
theorem Config.usedBits_disjoint {fields : List SubField} {m : Byte} (h : ∀ f ∈ fields, m &&& f.mask = 0#8) :
    Config.usedBits fields &&& m = 0#8 := by
  induction fields with
  | nil => exact BitVec.zero_and
  | cons f fs ih =>
    obtain ⟨hf, hfs⟩ := List.forall_mem_cons.1 h
    rw [Config.usedBits_cons, BitVec.and_or_distrib_right, ih hfs, BitVec.and_comm, hf, BitVec.or_zero]

/-- A byte composed of disjoint sub-fields has a documented value in each of them (R32). -/
theorem Config.Composed.field_mem {fields : List SubField} {p : Byte} (h : Config.Composed fields p)
    (hdisjoint : fields.Pairwise fun f g => f.mask &&& g.mask = 0#8) : ∀ f ∈ fields, p &&& f.mask ∈ f.values := by
  induction h with
  | nil => exact fun f hf => absurd hf List.not_mem_nil
  | @cons f fs v p hv hinside hp ih =>
    obtain ⟨hf, hfs⟩ := List.pairwise_cons.1 hdisjoint
    refine List.forall_mem_cons.2 ⟨?_, fun g hg => ?_⟩
    · have hrest : p &&& f.mask = 0#8 := disjoint_of_inside hp.reserved_zero (Config.usedBits_disjoint hf)
      rw [BitVec.and_or_distrib_right, hrest, and_mask_of_inside hinside, BitVec.or_zero]
      exact hv
    · have hfirst : v &&& g.mask = 0#8 := disjoint_of_inside hinside (hf g hg)
      rw [BitVec.and_or_distrib_right, hfirst, BitVec.zero_or]
      exact ih hfs g hg

/-! ## The ConfigFlags bytes in CT.INIT's micro-program -/

/-- Where CT.INIT sends the ConfigFlags bytes: `upc`, register, index in the payload (R127). -/
def initFlagPlaces : List (Nat × Reg × Nat) :=
  [(4, .psr, 0), (10, .pwr, 0), (26, .btst, 0), (27, .btst, 1), (28, .btst, 2), (34, .pfs, 0), (40, .tse, 0), (58, .pll, 0)]

theorem mem_flagBytes_of_place : ∀ q ∈ initFlagPlaces, q.2 ∈ Config.flagBytes := by decide

/-- The payload lengths of R10 put each ConfigFlags byte at its place. -/
theorem initProgram_flagByte {c : Config} (hc : c.Valid) :
    ∀ q ∈ initFlagPlaces, ∃ b, (c.payload q.2.1)[q.2.2]? = some b ∧ (initProgram c)[q.1]? = some (.tx b) := by
  have hlen := hc.payload_length
  simp only [Config.initRegs, List.forall_mem_cons, Config.payloadLength] at hlen
  obtain ⟨hpsr, hpwr, hbtst, hpfs, htse, htcon, hcdi, hpll, -⟩ := hlen
  simp [initFlagPlaces, initProgram, xactInit, xactBare, xact, hpsr, hpwr, hbtst, hpfs, htse, htcon, hcdi, hpll]

/-- What CT.INIT sends at a place of a ConfigFlags byte: a valid, documented combination (R32, R84, R193). -/
theorem initProgram_flagByte_documented {c : Config} (hc : c.Valid) (hflags : c.FlagsValid) :
    ∀ q ∈ initFlagPlaces, ∃ b, (initProgram c)[q.1]? = some (.tx b) ∧ c.validPayload q.2.1 b = true ∧
      Config.Composed (c.flagsOf q.2.1) b ∧
      (∀ n ∈ FlagName.ofReg q.2.1, c.fieldOf n b ∈ (c.flags n).values) ∧
      b &&& ~~~Config.usedBits (c.flagsOf q.2.1) = 0#8 := by
  intro q hq
  have hplace := mem_flagBytes_of_place q hq
  obtain ⟨b, hbyte, hsent⟩ := initProgram_flagByte hc q hq
  have hvalid := hflags.valid q.2 hplace b hbyte
  have hcomposed := hflags.documented q.2 hplace b hvalid
  have hfields := hcomposed.field_mem (hflags.disjoint q.2.1)
  exact ⟨b, hsent, hvalid, hcomposed, fun n hn => hfields _ (List.mem_map_of_mem hn), hcomposed.reserved_zero⟩

/-- The PSR byte that CT.INIT sends names the geometry (R193, R202). -/
theorem initProgram_resolution {c : Config} (hc : c.Valid) (hflags : c.FlagsValid) :
    ∃ b, (initProgram c)[4]? = some (.tx b) ∧ c.resolution (c.fieldOf .panelResolution b) = (c.width, c.height) := by
  obtain ⟨b, hbyte, hsent⟩ := initProgram_flagByte hc (4, .psr, 0) (by decide)
  exact ⟨b, hsent, hflags.resolution b hbyte⟩

end Sys2Proof

namespace Sys2Proof.Proofs

open Sys2Proof.Machine

/-- Settles O58: `Config.Composed.reserved_zero`. -/
theorem composedReservedBitsZero : Obligations.ComposedReservedBitsZero :=
  fun _ _ h => h.reserved_zero

/-- Settles O60: each place of the statement is one of `initFlagPlaces`, where CT.INIT sends a ConfigFlags byte of its payloads;
this machine's configuration meets the constraints too. -/
theorem initSendsDocumentedFlags : Obligations.InitSendsDocumentedFlags := by
  intro c d hconfig
  obtain ⟨hc, hflags⟩ : c.Valid ∧ c.FlagsValid := by
    rcases hconfig with rfl | h
    · exact ⟨Config.b2040_valid, Config.b2040_flagsValid⟩
    · exact h
  have hplaces := initProgram_flagByte_documented hc hflags
  refine ⟨fun p hp => ?_, initProgram_resolution hc hflags⟩
  have hmem : p ∈ initFlagPlaces.map fun q => (q.1, q.2.1, FlagName.ofReg q.2.1) := hp
  obtain ⟨q, hq, rfl⟩ := List.mem_map.1 hmem
  exact initProgram_flagByte_documented hc hflags q hq

end Sys2Proof.Proofs
end

section
/-! SUPPORT. The pixel map (20_memory.md R51 to R53): every byte and bit has its pixel, and the bounds and bytes of this machine's
geometry and layout. -/

namespace Sys2Proof.Machine

/-! ## Every byte and bit has a pixel -/

/-- The inverse of the row's part of the map: bit 0 is the last row of its group (R52). -/
theorem row_of_group_bit (g : Nat) {k : Nat} (hk : k < 8) :
    (8 * g + (7 - k)) / 8 = g ∧ pixelBit ((8 * g + (7 - k) : Nat) : Int) = k := by
  rw [pixelBit, Int.toNat_natCast]
  omega

/-- Every byte of the framebuffer and bit of a byte is that of some in-bounds pixel: the layout gives the column and the row group
of the byte, and the bit gives the row in the group (R53). -/
theorem pixel_surj {c : Config} (hc : c.Valid) {i k : Nat} (hi : i < c.fbBytes) (hk : k < 8) :
    ∃ x y, inBounds c x y = true ∧ pixelByte c x y = i ∧ pixelBit y = k := by
  obtain ⟨x, g, hx, hg, rfl⟩ := hc.idx_surj i hi
  obtain ⟨hgroup, hbit⟩ := row_of_group_bit g hk
  refine ⟨x, (8 * g + (7 - k) : Nat), ?_, ?_, hbit⟩
  · rw [Config.rowGroups] at hg
    rw [inBounds_iff]
    omega
  · rw [pixelByte, Int.toNat_natCast, Int.toNat_natCast, hgroup]

/-! ## The default geometry and layout -/

theorem inBounds_b2040_iff {x y : Int} :
    inBounds Config.b2040 x y = true ↔ 0 ≤ x ∧ x < 128 ∧ 0 ≤ y ∧ y < 296 := inBounds_iff

/-- Column-major, 37 row groups a column (R51). -/
theorem pixelByte_b2040 (x y : Int) : pixelByte Config.b2040 x y = x.toNat * 37 + y.toNat / 8 := rfl

end Sys2Proof.Machine

namespace Sys2Proof.Proofs

open Sys2Proof.Machine

/-- Settles O22: into the bytes and bits by `pixelByte_lt` and `pixelBit_lt`, onto them by `pixel_surj`, one to one by
`pixel_inj`. -/
theorem pixelMapBijective : Obligations.PixelMapBijective := by
  intro c hc
  refine ⟨fun x y hin => ⟨pixelByte_lt hc hin, pixelBit_lt y⟩, fun i k hi hk => ?_⟩
  obtain ⟨x, y, hin, hbyte, hbit⟩ := pixel_surj hc hi hk
  refine ⟨(x, y), ⟨hin, hbyte, hbit⟩, ?_⟩
  rintro ⟨x', y'⟩ ⟨hin', hbyte', hbit'⟩
  obtain ⟨rfl, rfl⟩ := pixel_inj hc hin' hin (hbyte'.trans hbyte.symm) (hbit'.trans hbit.symm)
  rfl

/-- Settles O23: for coordinates that are not negative, division of naturals and of integers agree. -/
theorem defaultPixelAddresses : Obligations.DefaultPixelAddresses := by
  refine fun x y => ⟨inBounds_b2040_iff, fun hin => ?_⟩
  obtain ⟨hx, -, hy, -⟩ := inBounds_b2040_iff.1 hin
  rw [pixelByte_b2040, pixelBit]
  omega

end Sys2Proof.Proofs
end

section
/-! SUPPORT. The round trip between instructions and their encoded forms, and the decoder's answer to each request word
(30_encoding.md R70 to R76, R80 to R83). -/

namespace Sys2Proof

open Sys2Proof.Safety

/-! ## The decoder's checks -/

@[simp] theorem checkReserved_true (d : Decoded) : checkReserved true d = d := rfl

@[simp] theorem checkReserved_false (d : Decoded) : checkReserved false d = .rejected .reservedBitSet := rfl

theorem checkReserved_eq_instr_iff {ok : Bool} {d : Decoded} {i : Instr} :
    checkReserved ok d = .instr i ↔ ok = true ∧ d = .instr i := by
  cases ok <;> simp

theorem withStream_eq_instr_iff {n : Nat} {stream : List Byte} {i j : Instr} :
    withStream n stream j = .instr i ↔ stream.length = n ∧ j = i := by
  unfold withStream
  split
  · simp only [reduceCtorEq, false_iff]
    omega
  · split <;> simp [*]

theorem withStream_of_length_lt {n : Nat} {stream : List Byte} (h : stream.length < n) (i : Instr) :
    withStream n stream i = .incomplete := if_pos h

/-- What a request word's coordinate fields hold is in the signed 12-bit range (R74). -/
theorem coordOk_toInt (v : BitVec 12) : coordOk v.toInt = true := by
  have hlt := BitVec.toInt_lt (x := v)
  have hle := BitVec.le_toInt v
  simp only [coordOk, decide_eq_true_eq]
  omega

theorem coordOk_xField (w : Word) : coordOk (xField w) = true := coordOk_toInt _

theorem coordOk_yField (w : Word) : coordOk (yField w) = true := coordOk_toInt _

theorem lengthField_lt (w : Word) : lengthField w < 65536 := BitVec.isLt _

theorem bitOfColor_colorOfBit (b : Bool) : bitOfColor (colorOfBit b) = b := by cases b <;> rfl

theorem colorOfBit_bitOfColor (col : Color) : colorOfBit (bitOfColor col) = col := by cases col <;> rfl

/-! ## Level H -/

theorem hopField_eq_of_toNat {w : Word} {n : Nat} (h : (hopField w).toNat = n) : hopField w = BitVec.ofNat 4 n := by
  rw [← h, BitVec.ofNat_toNat, BitVec.setWidth_eq]

/-- A word of format H0 from its `hop` (R70). -/
theorem wordH0_of_hop {w : Word} {n : Nat} (hn : (hopField w).toNat = n) (h : reservedH0 w = true) :
    wordH0 (BitVec.ofNat 4 n) = w := by
  rw [← hopField_eq_of_toNat hn, wordH0_fields w h]

/-- A word of format HP from its fields (R70). -/
theorem wordHP_of_hop {w : Word} {n : Nat} (hn : (hopField w).toNat = n) (h : reservedHP w = true) :
    wordHP (BitVec.ofNat 4 n) (vField w) (xField w) (yField w) = w := by
  rw [← hopField_eq_of_toNat hn, wordHP_fields w h]

/-- A word of format HC from its fields (R70). -/
theorem wordHC_of_hop {w : Word} {n : Nat} (hn : (hopField w).toNat = n) (h : reservedHC w = true) :
    wordHC (BitVec.ofNat 4 n) (regField w) (lengthField w) = w := by
  rw [← hopField_eq_of_toNat hn, wordHC_fields w h]

/-- What decodes as a request is the encoding of a well-formed instruction. -/
theorem encode_of_decodeRequest {c : Config} {w : Word} {stream : List Byte} {i : Instr}
    (h : decodeRequest c w stream = .instr i) : encode c i = .request w stream ∧ i.wellFormed c = true := by
  unfold decodeRequest at h
  split at h
  case h_12 => cases h
  all_goals
    rename_i hop
    obtain ⟨hres, h⟩ := checkReserved_eq_instr_iff.1 h
    obtain ⟨hlen, rfl⟩ := withStream_eq_instr_iff.1 h
  case h_1 =>
    rw [encode, wordHP_of_hop hop hres, List.length_eq_zero_iff.1 hlen]
    simp [Instr.wellFormed, coordOk_xField, coordOk_yField]
  case h_3 =>
    obtain ⟨hresHP, hv⟩ := reservedHC_iff_wordHP w hres
    rw [encode, ← hv, wordHP_of_hop hop hresHP, List.length_eq_zero_iff.1 hlen]
    simp [Instr.wellFormed, coordOk_xField, coordOk_yField]
  case h_4 =>
    rw [encode, bitOfColor_colorOfBit, wordHP_of_hop hop hres, List.length_eq_zero_iff.1 hlen]
    simp [Instr.wellFormed, coordOk_xField, coordOk_yField]
  case h_9 =>
    rw [encode, wordH0_of_hop hop hres]
    exact ⟨rfl, beq_iff_eq.2 hlen⟩
  case h_10 =>
    rw [encode, hlen, wordHC_of_hop hop hres]
    exact ⟨rfl, decide_eq_true (hlen ▸ lengthField_lt w)⟩
  case h_2 | h_5 | h_6 | h_7 | h_8 | h_11 =>
    rw [encode, wordH0_of_hop hop hres, List.length_eq_zero_iff.1 hlen]
    exact ⟨rfl, rfl⟩

/-- The encoding of a well-formed host operation decodes to it. -/
theorem decodeRequest_of_encode {c : Config} {w : Word} {stream : List Byte} {i : Instr}
    (h : encode c i = .request w stream) (hwf : i.wellFormed c = true) : decodeRequest c w stream = .instr i := by
  cases i <;> simp only [encode, Encoded.request.injEq, reduceCtorEq] at h <;> obtain ⟨rfl, rfl⟩ := h
  case fbWrite x y b =>
    obtain ⟨hx, hy⟩ := Bool.and_eq_true_iff.1 hwf
    simp [decodeRequest, hopField_wordHP, reservedHP_wordHP, xField_wordHP, yField_wordHP, vField_wordHP, hx, hy, withStream]
  case fbQuery x y =>
    obtain ⟨hx, hy⟩ := Bool.and_eq_true_iff.1 hwf
    simp [decodeRequest, hopField_wordHP, reservedHC_wordHP, xField_wordHP, yField_wordHP, hx, hy, withStream]
  case daPixel x y col =>
    obtain ⟨hx, hy⟩ := Bool.and_eq_true_iff.1 hwf
    simp [decodeRequest, hopField_wordHP, reservedHP_wordHP, xField_wordHP, yField_wordHP, vField_wordHP, hx, hy, withStream,
      colorOfBit_bitOfColor]
  case ctSendframe =>
    have hlen := beq_iff_eq.1 hwf
    simp [decodeRequest, hopField_wordH0, reservedH0_wordH0, withStream, hlen]
  case ctCmd reg payload =>
    have hlen : payload.length < 65536 := of_decide_eq_true hwf
    simp [decodeRequest, hopField_wordHC, reservedHC_wordHC, regField_wordHC, lengthField_wordHC, hlen, withStream]
  case fbClear | daPush | daClearbuf | ctReset | ctInit | ctOff =>
    simp [decodeRequest, hopField_wordH0, reservedH0_wordH0, withStream]

/-! ## Level B -/

theorem payload0_eq_instr_iff {j i : Instr} {p : List Byte} : payload0 j p = .instr i ↔ p = [] ∧ j = i := by
  cases p <;> simp [payload0]

theorem payload1_eq_instr_iff {f : Byte → Instr} {i : Instr} {p : List Byte} :
    payload1 f p = .instr i ↔ ∃ b, p = [b] ∧ f b = i := by
  unfold payload1
  split
  · simp
  · simp_all

theorem payloadBtst_eq_instr_iff {i : Instr} {p : List Byte} :
    payloadBtst p = .instr i ↔ ∃ b, p = [b, b, b] ∧ .btst b b b = i := by
  unfold payloadBtst
  split
  · simp only [Bool.and_eq_true, beq_iff_eq]
    split
    · obtain ⟨rfl, rfl⟩ := ‹_ ∧ _›
      simp
    · refine ⟨nofun, ?_⟩
      rintro ⟨b, hp, -⟩
      cases hp
      exact (‹¬ (_ ∧ _)› ⟨rfl, rfl⟩).elim
  · simp_all

theorem payloadPwr_eq_instr_iff {i : Instr} {p : List Byte} :
    payloadPwr p = .instr i ↔ ∃ b0 b1 b2 b3 b4, p = [b0, b1, b2, b3, b4] ∧ .pwr b0 b1 b2 b3 b4 = i := by
  unfold payloadPwr
  split
  · simp
  · simp_all

theorem payloadFrame_eq_instr_iff {c : Config} {i : Instr} {p : List Byte} :
    payloadFrame c p = .instr i ↔ p.length = c.fbBytes ∧ .dtm2 p = i := by
  unfold payloadFrame
  split <;> simp_all

/-- The bus commands of a register are the well-formed ones the table of R80 has for it (R80, R82). -/
theorem busInstr_eq_instr_iff {c : Config} {r : Reg} {p : List Byte} {i : Instr} :
    busInstr c r p = .instr i ↔ i.busParts = some (r, p) ∧ i.wellFormed c = true := by
  constructor
  · intro h
    cases r with
    | psr | pfs | tse | tcon | cdi | pll =>
      obtain ⟨b, rfl, rfl⟩ := payload1_eq_instr_iff.1 h
      exact ⟨rfl, rfl⟩
    | pon | pof | ptou | dsp | drf =>
      obtain ⟨rfl, rfl⟩ := payload0_eq_instr_iff.1 h
      exact ⟨rfl, rfl⟩
    | pwr =>
      obtain ⟨b0, b1, b2, b3, b4, rfl, rfl⟩ := payloadPwr_eq_instr_iff.1 h
      exact ⟨rfl, rfl⟩
    | btst =>
      obtain ⟨b, rfl, rfl⟩ := payloadBtst_eq_instr_iff.1 h
      simp [Instr.busParts, Instr.wellFormed]
    | dtm2 =>
      obtain ⟨hlen, rfl⟩ := payloadFrame_eq_instr_iff.1 h
      exact ⟨rfl, beq_iff_eq.2 hlen⟩
  · rintro ⟨hparts, hwf⟩
    cases i with
    | btst =>
      cases hparts
      exact if_pos hwf
    | dtm2 =>
      cases hparts
      exact if_pos (beq_iff_eq.1 hwf)
    | _ => cases hparts <;> rfl

theorem encode_of_busParts {c : Config} {i : Instr} {r : Reg} {p : List Byte} (h : i.busParts = some (r, p)) :
    encode c i = .transaction (c.addr r) p := by
  cases i <;> cases h <;> rfl

theorem busParts_of_encode {c : Config} {i : Instr} {opcode : Byte} {p : List Byte}
    (h : encode c i = .transaction opcode p) : ∃ r, i.busParts = some (r, p) ∧ opcode = c.addr r := by
  cases i <;> cases h <;> exact ⟨_, rfl, rfl⟩

theorem addr_of_regOfOpcode {c : Config} {opcode : Byte} {r : Reg} (h : regOfOpcode c opcode = some r) :
    c.addr r = opcode := by
  simpa using List.find?_some h

/-- A transaction of a register's opcode byte is that register's (R9, R80). -/
theorem decodeTransaction_addr {c : Config} (hc : c.Valid) (r : Reg) (p : List Byte) :
    decodeTransaction c (c.addr r) p = busInstr c r p := by
  rw [decodeTransaction, regOfOpcode_addr hc]

/-! ## Both levels -/

/-- The encoding of a well-formed instruction decodes to it, if the opcode bytes are distinct (R9). -/
theorem decode_encode {c : Config} (hc : c.Valid) {i : Instr} (hwf : i.wellFormed c = true) :
    decode c (encode c i) = .instr i := by
  cases h : encode c i with
  | request w stream => exact decodeRequest_of_encode h hwf
  | transaction opcode p =>
    obtain ⟨r, hparts, rfl⟩ := busParts_of_encode h
    exact (decodeTransaction_addr hc r p).trans (busInstr_eq_instr_iff.2 ⟨hparts, hwf⟩)

/-- What decodes is the encoding of a well-formed instruction. -/
theorem encode_of_decode {c : Config} {e : Encoded} {i : Instr} (h : decode c e = .instr i) :
    encode c i = e ∧ i.wellFormed c = true := by
  cases e with
  | request w stream => exact encode_of_decodeRequest h
  | transaction opcode p =>
    rw [decode, decodeTransaction] at h
    cases hr : regOfOpcode c opcode with
    | none => simp [hr] at h
    | some r =>
      rw [hr] at h
      obtain ⟨hparts, hwf⟩ := busInstr_eq_instr_iff.1 h
      rw [encode_of_busParts hparts, addr_of_regOfOpcode hr]
      exact ⟨rfl, hwf⟩

/-- A row of the opcode table that is an encoding decodes to its instruction. -/
theorem decodeTableWord_of_encode {n : Nat} {i : Instr}
    (h : encode Config.b2040 i = .request (BitVec.ofNat 32 n) (zeroStream Config.b2040 (BitVec.ofNat 32 n)))
    (hwf : i.wellFormed Config.b2040 = true) : decodeTableWord 32 n = some i := by
  rw [decodeTableWord, decodeRequest_of_encode h hwf, Decoded.toOption]

/-! ## The words that name an operation -/

/-- A word that fits a pattern of R73 is an instruction as soon as the stream bytes it announces are there (R75). -/
theorem decodeRequest_of_namesOperation (c : Config) {w : Word} (h : NamesOperation w) (stream : List Byte) :
    ∃ i, decodeRequest c w stream = withStream (streamLength c w) stream i := by
  rcases (namesOperation_iff w).1 h with
    ⟨hop, hres⟩ | ⟨hop, hres⟩ | ⟨hop, hres⟩ | ⟨hop, hres⟩ | ⟨hop | hop | hop | hop | hop | hop | hop, hres⟩ <;>
  · simp only [decodeRequest, streamLength, hop, hres, checkReserved_true]
    exact ⟨_, rfl⟩

/-- A word that fits no pattern of R73 is rejected whatever its stream: its `hop` names no operation, or a reserved bit is set
(R76). -/
theorem decodeRequest_of_not_namesOperation (c : Config) {w : Word} (h : ¬ NamesOperation w) (stream : List Byte) :
    decodeRequest c w stream = .rejected
      (if (hopField w).toNat ∈ [0x0, 0x7, 0xD, 0xE, 0xF] then .noSuchOperation else .reservedBitSet) := by
  have hlt := (hopField w).isLt
  rw [namesOperation_iff] at h
  unfold decodeRequest
  generalize (hopField w).toNat = n at *
  interval_cases n <;> simp_all

end Sys2Proof

namespace Sys2Proof.Proofs

open Sys2Proof.Safety

/-- Settles O2: `decode_encode`. -/
theorem decodeOfEncode : Obligations.DecodeOfEncode :=
  fun _ hc _ hwf => decode_encode hc hwf

/-- Settles O3: `encode_of_decode`. -/
theorem encodeOfDecode : Obligations.EncodeOfDecode :=
  fun _ _ _ h => encode_of_decode h

/-- Settles O4: a word that fits a pattern decodes with a stream of zeros, and one that fits none is rejected. -/
theorem wordsNamedByThePatterns : Obligations.WordsNamedByThePatterns := by
  refine fun w => ⟨fun hnames => ?_, fun ⟨stream, i, hdecode⟩ => ?_⟩
  · obtain ⟨i, hi⟩ := decodeRequest_of_namesOperation Config.b2040 hnames (zeroStream Config.b2040 w)
    exact ⟨_, i, hi.trans (withStream_eq_instr_iff.2 ⟨List.length_replicate, rfl⟩)⟩
  · by_contra hnames
    rw [decodeRequest_of_not_namesOperation _ hnames] at hdecode
    cases hdecode

/-- Settles O1: each form of the spec is the encoding of its instruction (V3, V5, V7), so it decodes to it. -/
theorem specWordsDecode : Obligations.SpecWordsDecode := by
  refine ⟨?_, ?_, ?_, ?_, ?_, ?_, ?_, ?_, ?_, ?_, ?_, fun frame hlen => ?_, ?_, ?_⟩
  iterate 10 exact decodeTableWord_of_encode (by decide) rfl
  · exact decodeRequest_of_encode (by decide) rfl
  · exact decodeRequest_of_encode (c := Config.b2040) rfl (beq_iff_eq.2 hlen)
  · exact decode_encode Config.b2040_valid (i := .psr 0x9F#8) rfl
  · exact decode_encode Config.b2040_valid (i := .pon) rfl

end Sys2Proof.Proofs
end

section
/-! SUPPORT. The host port at a step (30_encoding.md R71, R75 to R77): what becomes of the requests and the responses, and the
response words. -/

namespace Sys2Proof.Machine

open Sys2Proof Sys2Proof.Safety

/-! ## What a ready block does with the head of its port -/

/-- A ready block's step is that of what it finds at the port. -/
theorem fetch_ready {c : Config} {s : State} (hs : s.ready = true) (hr : s.refused = false) :
    fetch c s = fetchRequest c s.inbox := by
  obtain ⟨ho, hf⟩ := (State.ready_iff s).1 hs
  simp [fetch, hf, hr, ho]

theorem step_waiting {s : State} (h : fetch Config.b2040 s = .waiting) : step s = .next (s.elapse 1) := by
  rw [step, h]

theorem step_illegal {s : State} {e : DecodeError} (h : fetch Config.b2040 s = .illegal e) :
    step s = .refused (.illegalRequest e) := by
  rw [step, h]

theorem fetchRequest_incomplete {c : Config} {r : Request} {rest : List Request}
    (h : decodeRequest c r.word r.stream = .incomplete) : fetchRequest c (r :: rest) = .waiting := by
  rw [fetchRequest, h]

theorem fetchRequest_rejected {c : Config} {r : Request} {rest : List Request} {e : DecodeError}
    (h : decodeRequest c r.word r.stream = .rejected e) : fetchRequest c (r :: rest) = .illegal e := by
  rw [fetchRequest, h]

/-- A request that has fewer stream bytes than its word announces has not arrived in full (R75). -/
theorem decodeRequest_incomplete {c : Config} {w : Word} {stream : List Byte} (hnames : NamesOperation w)
    (hlen : stream.length < streamLength c w) : decodeRequest c w stream = .incomplete := by
  obtain ⟨i, hi⟩ := decodeRequest_of_namesOperation c hnames stream
  rw [hi, withStream_of_length_lt hlen]

/-- A ready block waits for the rest of a request that has not arrived in full (R75, R190). -/
theorem step_of_partial_request {s : State} {r : Request} {rest : List Request} (hs : s.ready = true)
    (hr : s.refused = false) (hi : s.inbox = r :: rest) (hnames : NamesOperation r.word)
    (hlen : r.stream.length < streamLength Config.b2040 r.word) : step s = .next (s.elapse 1) := by
  refine step_waiting ?_
  rw [fetch_ready hs hr, hi, fetchRequest_incomplete (decodeRequest_incomplete hnames hlen)]

/-- A ready block refuses a request word that fits no pattern of R73, by its reason (R76). -/
theorem step_of_illegal_word {s : State} {r : Request} {rest : List Request} (hs : s.ready = true)
    (hr : s.refused = false) (hi : s.inbox = r :: rest) (hnames : ¬ NamesOperation r.word) :
    step s = .refused (.illegalRequest
      (if (hopField r.word).toNat ∈ [0x0, 0x7, 0xD, 0xE, 0xF] then .noSuchOperation else .reservedBitSet)) := by
  refine step_illegal ?_
  rw [fetch_ready hs hr, hi, fetchRequest_rejected (decodeRequest_of_not_namesOperation _ hnames r.stream)]

/-! ## The words of the two requests that have a stream -/

theorem namesOperation_ctSendframe : NamesOperation 0xA0000000#32 :=
  (namesOperation_iff _).2 (by decide)

theorem streamLength_ctSendframe (c : Config) : streamLength c 0xA0000000#32 = c.fbBytes := rfl

theorem wordHC_ctCmd (reg : Byte) (n : BitVec 16) : 0xB0#8 ++ reg ++ n = wordHC 0xB#4 reg n.toNat := by
  rw [wordHC, BitVec.ofNat_toNat, BitVec.setWidth_eq]
  rfl

theorem namesOperation_ctCmd (reg : Byte) (n : Nat) : NamesOperation (wordHC 0xB#4 reg n) := by
  rw [namesOperation_iff, hopField_wordHC, reservedHC_wordHC]
  exact .inr (.inr (.inr (.inl ⟨rfl, rfl⟩)))

theorem streamLength_ctCmd (c : Config) (reg : Byte) (n : BitVec 16) :
    streamLength c (wordHC 0xB#4 reg n.toNat) = n.toNat := by
  rw [streamLength, hopField_wordHC, lengthField_wordHC _ _ _ n.isLt]
  rfl

/-! ## Requests while an operation is in progress -/

theorem ready_false_of_op {s : State} {o : OpKind} (ho : s.op = some o) : s.ready = false := by
  simp [State.ready, ho]

/-- An operation in progress leaves the port alone (R71). -/
@[simp] theorem operationStep_inbox (c : Config) (o : OpKind) (s : State) :
    (operationStep c o s).inbox = s.inbox := by
  cases h : (mprog c o s.opnd)[s.upc]? with
  | none => rw [operationStep_complete h, complete_inbox]
  | some m =>
    obtain ⟨-, -, -, -, -, hinbox, -⟩ := microOp_frame c m s
    rw [operationStep_microOp h, hinbox]

/-! ## Responses -/

@[simp] theorem responses_append (a b : List Event) : responses (a ++ b) = responses a ++ responses b :=
  List.filterMap_append

@[simp] theorem responses_nil : responses [] = [] := rfl

@[simp] theorem responses_rsp (r : Response) (tr : List Event) : responses (.rsp r :: tr) = r :: responses tr := rfl

@[simp] theorem responses_diag (code : Nat) (x y : Int) (tr : List Event) :
    responses (.diag code x y :: tr) = responses tr := rfl

/-- No micro-op that completes is a response. -/
@[simp] theorem responses_eventsFrom_singleton (s : State) (m : MicroOp) : responses (eventsFrom s [m]) = [] := by
  cases m <;> rfl

theorem responses_afterMicroOp (m : MicroOp) (s : State) :
    responses (afterMicroOps [m] s).trace = responses s.trace := by
  simp [afterMicroOps]

@[simp] theorem pixelWrite_op (c : Config) (x y : Int) (b : Bool) (s : State) : (pixelWrite c x y b s).op = s.op := by
  rw [pixelWrite_eq]

@[simp] theorem clearAll_op (c : Config) (s : State) : (clearAll c s).op = s.op := rfl

@[simp] theorem pixelQuery_op (c : Config) (x y : Int) (s : State) : (pixelQuery c x y s).op = s.op := by
  rw [pixelQuery_eq]

theorem responses_pixelWrite (c : Config) (x y : Int) (b : Bool) (s : State) :
    responses (pixelWrite c x y b s).trace = responses s.trace ++ [.ok] := by
  unfold pixelWrite
  split <;> simp [raise]

theorem responses_clearAll (c : Config) (s : State) : responses (clearAll c s).trace = responses s.trace ++ [.ok] := by
  simp [clearAll]

theorem responses_pixelQuery (c : Config) (x y : Int) (s : State) :
    ∃ r, responses (pixelQuery c x y s).trace = responses s.trace ++ [r] := by
  unfold pixelQuery
  split
  · exact ⟨_, by rw [State.respond_trace, responses_append, responses_rsp, responses_nil]⟩
  · exact ⟨.unknown, by simp [raise]⟩

theorem pending_of_op_none {s : State} (ho : s.op = none) : pending s = 0 := by simp [pending, ho]

theorem pending_of_fault {s : State} {r : FaultRecord} (hf : s.fault = some r) : pending s = 0 := by simp [pending, hf]

theorem pending_of_op {s : State} {o : OpKind} (ho : s.op = some o) (hf : s.fault = none) : pending s = 1 := by
  simp [pending, ho, hf]

/-- The responses sent, and the one owed to the request in progress. -/
def sentOrOwed (s : State) : Nat := (responses s.trace).length + pending s

/-- The response to the request in progress is owed no longer once it is sent. -/
theorem sentOrOwed_of_answer {s t : State} {r : Response} (hs : pending s = 1) (ht : pending t = 0)
    (htrace : t.trace = s.trace ++ [.rsp r]) : sentOrOwed t = sentOrOwed s := by
  simp [sentOrOwed, hs, ht, htrace]

/-- An operation in progress owes one response until it sends it: at its completion or with its fatal exception (R121, R166). -/
theorem sentOrOwed_operationStep (c : Config) {o : OpKind} {s : State} (ho : s.op = some o) (hf : s.fault = none) :
    sentOrOwed (operationStep c o s) = sentOrOwed s := by
  have howed : pending s = 1 := pending_of_op ho hf
  rcases operationStep_cases c o s with
    ⟨m, -, -, heq⟩ | ⟨-, -, -, heq⟩ | ⟨b, -, -, heq⟩ | ⟨-, -, -, heq⟩ | ⟨-, heq⟩ <;> rw [heq]
  · have hkept : pending (afterMicroOps [m] s) = pending s := rfl
    rw [sentOrOwed, responses_afterMicroOp, hkept, sentOrOwed]
  · rfl
  · exact sentOrOwed_of_answer howed (pending_of_fault (raiseFatal_fault s _)) (raiseFatal_trace s _)
  · exact sentOrOwed_of_answer howed (pending_of_fault (raiseFatal_fault s _)) (raiseFatal_trace s _)
  · exact sentOrOwed_of_answer howed (pending_of_op_none (complete_op s o)) (complete_trace s o)

/-- A request that is answered in one step. -/
theorem sentOrOwed_of_immediate {s t : State} {r : Response} (hs : s.op = none) (ht : t.op = none)
    (h : responses t.trace = responses s.trace ++ [r]) : sentOrOwed t = sentOrOwed s + 1 := by
  simp [sentOrOwed, pending_of_op_none hs, pending_of_op_none ht, h]

/-- A host operation that is taken is answered at once, or its response is owed from then on (R71, R77, R120). -/
theorem sentOrOwed_exec_host {i : Instr} (hi : i.isHostOp = true) {s t : State} (h : exec i s = .next t) :
    sentOrOwed t = sentOrOwed s + 1 := by
  obtain ⟨hop, hfault, hcases⟩ := exec_host_cases hi h
  rcases hcases with ⟨x, y, b, -, rfl⟩ | ⟨-, rfl⟩ | ⟨x, y, -, rfl⟩ | ⟨o, d, -, -, rfl⟩ | ⟨-, -, rfl⟩
  · exact sentOrOwed_of_immediate hop ((pixelWrite_op ..).trans hop) (responses_pixelWrite Config.b2040 x y b s)
  · exact sentOrOwed_of_immediate hop ((clearAll_op Config.b2040 s).trans hop) (responses_clearAll Config.b2040 s)
  · obtain ⟨r, hr⟩ := responses_pixelQuery Config.b2040 x y s
    exact sentOrOwed_of_immediate hop ((pixelQuery_op ..).trans hop) hr
  · have howed : pending ({ s with st := o.stAccepted s.st, op := some o, opnd := d, upc := 0 }.elapse 1) = 1 :=
      pending_of_op rfl hfault
    rw [sentOrOwed, howed, sentOrOwed, pending_of_op_none hop]
    rfl
  · exact sentOrOwed_of_immediate (r := .ok) hop hop (by simp)

/-- A host operation that is taken leaves the requests after it on the port (R71). -/
theorem exec_host_inbox {i : Instr} (hi : i.isHostOp = true) {s t : State} (h : exec i s = .next t) :
    t.inbox = s.inbox := by
  obtain ⟨-, -, heffect⟩ := exec_host_effect hi h
  rcases heffect with ⟨fb, tr, rfl, -, -⟩ | ⟨o, d, -, -, rfl⟩ | ⟨-, rfl⟩ <;> rfl

/-! ## Response words -/

/-- Two fields of a word as one bit string. -/
theorem shiftLeft_or_eq_append (v : BitVec 8) (x : BitVec 24) :
    (v.setWidth 32 <<< 24) ||| x.setWidth 32 = v ++ x := by
  rw [BitVec.append_def, BitVec.shiftLeftZeroExtend_eq, BitVec.setWidth'_eq]

/-- The 24 bits of `info` below the code, which is below the response's own four bits (R77). -/
theorem word_err (code : FatalCause) (info : Nat) :
    (Response.err code info).word = 0xF#4 ++ code.code ++ BitVec.ofNat 24 info := by
  have htop : 0xF0000000#32 ||| (code.code.setWidth 32 <<< 24) = (0xF#4 ++ code.code).setWidth 32 <<< 24 := by
    cases code <;> rfl
  rw [Response.word, htop, shiftLeft_or_eq_append]

/-- The response word of an exception as a number (R77, R160). -/
theorem toNat_word_err (code : FatalCause) {info : Nat} (h : info < 2 ^ 24) :
    ((Response.err code info).word).toNat = 0xF * 2 ^ 28 + code.code.toNat * 2 ^ 24 + info := by
  have hinfo : (BitVec.ofNat 24 info).toNat = info := Nat.mod_eq_of_lt h
  have hcode : (0xF#4 ++ code.code).toNat <<< 24 = 0xF * 2 ^ 28 + code.code.toNat * 2 ^ 24 := by cases code <;> rfl
  rw [word_err, BitVec.toNat_append, hinfo, ← Nat.shiftLeft_add_eq_or_of_lt h, hcode]

end Sys2Proof.Machine

namespace Sys2Proof.Proofs

open Sys2Proof.Machine Sys2Proof.Safety

/-- Settles O5: `step_of_illegal_word`; the two reasons are different. -/
theorem illegalWordsRefused : Obligations.IllegalWordsRefused := by
  intro s r rest hs hr hi hnames
  have hstep := step_of_illegal_word hs hr hi hnames
  exact ⟨⟨_, hstep, by split <;> simp [*]⟩, runStep_of_step_refused hstep⟩

/-- Settles O16: along what a step can be (`step_cases`): an operation in progress sends the response it owes, and a request that
is taken off the port is answered or owed its response. -/
theorem everyRequestAnsweredOnce : Obligations.EveryRequestAnsweredOnce := by
  intro s t hstep
  show sentOrOwed t + t.inbox.length = sentOrOwed s + s.inbox.length
  obtain ⟨hfault, -, hcases⟩ := step_cases hstep
  rcases hcases with ⟨o, ho, rfl⟩ | ⟨-, rfl⟩ | ⟨-, r, rest, i, hinbox, hdecode, hexec⟩
  · rw [sentOrOwed_operationStep _ ho hfault, operationStep_inbox]
  · rfl
  · have hhost := decodeRequest_isHostOp hdecode
    have hsent : sentOrOwed t = sentOrOwed { s with inbox := rest } + 1 := sentOrOwed_exec_host hhost hexec
    have hport : t.inbox = rest := exec_host_inbox hhost hexec
    have hkept : sentOrOwed { s with inbox := rest } = sentOrOwed s := rfl
    rw [hsent, hport, hinbox, List.length_cons, hkept]
    omega

/-- Settles O6: `step_request`. -/
theorem stepRunsDecodedRequest : Obligations.StepRunsDecodedRequest :=
  fun _ _ _ _ hs hr hi hdecode => step_request hs hr hi hdecode

/-- Settles O13: with no request the block waits, and so it does for the rest of a stream (`step_of_partial_request`). -/
theorem waitingBlockKeepsItsState : Obligations.WaitingBlockKeepsItsState := by
  intro s hs hr
  refine ⟨fun hi => ?_, fun stream rest hi hlen => ?_, fun reg n stream rest hi hlen => ?_⟩
  · exact step_waiting (by rw [fetch_ready hs hr, hi, fetchRequest])
  · exact step_of_partial_request hs hr hi namesOperation_ctSendframe
      (hlen.trans_eq (streamLength_ctSendframe Config.b2040).symm)
  · rw [wordHC_ctCmd] at hi
    exact step_of_partial_request hs hr hi (namesOperation_ctCmd reg _) (hlen.trans_eq (streamLength_ctCmd _ reg n).symm)

/-- Settles O15: the block is not ready (`exec_notReady`), and the operation leaves the port alone (`operationStep_inbox`). -/
theorem oneRequestAtATime : Obligations.OneRequestAtATime := by
  refine fun s o ho => ⟨fun i hi => exec_notReady hi (ready_false_of_op ho), fun t hstep => ?_⟩
  obtain ⟨hfault, hrefused, -⟩ := step_cases hstep
  rw [step_operation hfault hrefused ho, Host.Outcome.next.injEq] at hstep
  rw [← hstep, operationStep_inbox]

/-- Settles O57: the code of an exception and its `info` stand in the word's lower 28 bits (`toNat_word_err`). -/
theorem responseWords : Obligations.ResponseWords := by
  refine ⟨rfl, fun b => ?_, rfl, fun code info h => ?_⟩
  · cases b <;> rfl
  · rw [toNat_word_err code h]
    cases code <;> rfl

end Sys2Proof.Proofs
end

section
/-! SUPPORT. The framebuffer operations (40_framebuffer.md R100 to R103): what a ready block answers to each, and what pixel writes
leave in the store when they follow one another. -/

namespace Sys2Proof.Machine

open Sys2Proof Sys2Proof.Safety

/-! ## What a ready block answers -/

/-- The block after a request that is answered OK in one step and leaves the store `fb` (R56, R100, R101). -/
def State.afterStore (fb : Memory) (s : State) : State :=
  { s with fb := fb, trace := s.trace ++ [.rsp .ok], moves := s.moves.drop 1, tick := s.tick + 1 }

@[simp] theorem State.afterStore_fb (fb : Memory) (s : State) : (s.afterStore fb).fb = fb := rfl

@[simp] theorem State.afterStore_ready (fb : Memory) (s : State) : (s.afterStore fb).ready = s.ready := rfl

/-- Of two such requests the store of the first does not outlive the second. -/
theorem State.afterStore_afterStore (fb fb' fb₂ : Memory) (s : State) :
    (s.afterStore fb).afterStore fb₂ = (s.afterStore fb').afterStore fb₂ := rfl

theorem State.respond_elapse_eq_afterStore (fb : Memory) (s : State) :
    ({ s with fb := fb }.respond .ok).elapse 1 = s.afterStore fb := rfl

theorem immediate_of_ready {s : State} (hs : s.ready = true) (effect : State → State) :
    immediate effect s = .next ((effect s).elapse 1) := if_pos hs

theorem exec_fbWrite_inBounds {s : State} (hs : s.ready = true) {x y : Int} (h : inBounds Config.b2040 x y = true) (b : Bool) :
    exec (.fbWrite x y b) s = .next (s.afterStore (writePixel Config.b2040 s.fb x y b)) := by
  rw [exec, execFbWrite, immediate_of_ready hs, pixelWrite, if_pos h, State.respond_elapse_eq_afterStore]

theorem exec_fbClear {s : State} (hs : s.ready = true) :
    exec .fbClear s = .next (s.afterStore (memZero Config.b2040)) := by
  rw [exec, execFbClear, immediate_of_ready hs, clearAll, State.respond_elapse_eq_afterStore]

/-- DA.CLEARBUF is FB.CLEAR (R112). -/
theorem exec_daClearbuf (s : State) : exec .daClearbuf s = exec .fbClear s := rfl

theorem exec_fbQuery {s : State} (hs : s.ready = true) (x y : Int) :
    exec (.fbQuery x y) s = .next ((pixelQuery Config.b2040 x y s).elapse 1) := immediate_of_ready hs _

theorem pixelQuery_inBounds {c : Config} {x y : Int} (h : inBounds c x y = true) (s : State) :
    pixelQuery c x y s = s.respond (if s.move.avail then .bit (readPixel c s.fb x y) else .unknown) := if_pos h

theorem pixelQuery_outOfBounds {c : Config} {x y : Int} (h : inBounds c x y = false) (s : State) :
    pixelQuery c x y s = (s.emit (.diag 1 x y)).respond .unknown := if_neg (Bool.eq_false_iff.1 h)

theorem execAll_cons {i : Instr} {s t : State} (h : exec i s = .next t) (is : List Instr) :
    execAll (i :: is) s = execAll is t := by
  rw [execAll, h]

/-! ## Bits of a byte -/

theorem setBit_setBit_same (v : Byte) {k : Nat} (hk : k < 8) (b b' : Bool) : setBit (setBit v k b) k b' = setBit v k b' := by
  refine BitVec.eq_of_getLsbD_eq fun j hj => ?_
  simp only [getLsbD_setBit _ hk _ _ hj]
  split <;> rfl

theorem setBit_comm (v : Byte) {k k' : Nat} (hk : k < 8) (hk' : k' < 8) (hne : k ≠ k') (b b' : Bool) :
    setBit (setBit v k b) k' b' = setBit (setBit v k' b') k b := by
  refine BitVec.eq_of_getLsbD_eq fun j hj => ?_
  simp only [getLsbD_setBit _ hk _ _ hj, getLsbD_setBit _ hk' _ _ hj]
  by_cases hjk : j = k
  · rw [if_pos hjk, if_pos hjk, if_neg (hjk ▸ hne)]
  · rw [if_neg hjk, if_neg hjk]

/-- A byte all of whose bits have one value. -/
theorem eq_of_all_bits {v : Byte} {b : Bool} (h : ∀ k, k < 8 → v.getLsbD k = b) : v = if b then 0xFF#8 else 0x00#8 := by
  refine BitVec.eq_of_getLsbD_eq fun k hk => ?_
  rw [h k hk]
  cases b with
  | false => exact BitVec.getLsbD_zero.symm
  | true => exact ((BitVec.getLsbD_allOnes (v := 8)).trans (decide_eq_true hk)).symm

/-! ## Pixels of the store -/

theorem memRead_writePixel_same (c : Config) (m : Memory) (x y : Int) (b : Bool) :
    memRead (writePixel c m x y b) (pixelByte c x y) = setBit (memRead m (pixelByte c x y)) (pixelBit y) b :=
  memRead_memWrite_same ..

/-- Every pixel of the cleared store is zero (R101). -/
theorem readPixel_memZero {c : Config} (hc : c.Valid) {x y : Int} (h : inBounds c x y = true) :
    readPixel c (memZero c) x y = false := by
  rw [readPixel, memRead_memZero (pixelByte_lt hc h), BitVec.getLsbD_zero]

/-- The later of two writes to one pixel stays (R103 (e)). -/
theorem writePixel_writePixel_same (c : Config) (m : Memory) (x y : Int) (b b' : Bool) :
    writePixel c (writePixel c m x y b) x y b' = writePixel c m x y b' := by
  simp only [writePixel, memRead_memWrite_same, memWrite_memWrite_same, setBit_setBit_same _ (pixelBit_lt y)]

/-- Writes to different pixels commute: they are writes to different bytes, or to different bits of one byte (R103 (e)). -/
theorem writePixel_comm {c : Config} (hc : c.Valid) (m : Memory) {x y x' y' : Int} (h : inBounds c x y = true)
    (h' : inBounds c x' y' = true) (hne : (x, y) ≠ (x', y')) (b b' : Bool) :
    writePixel c (writePixel c m x y b) x' y' b' = writePixel c (writePixel c m x' y' b') x y b := by
  simp only [writePixel]
  by_cases hbyte : pixelByte c x y = pixelByte c x' y'
  · have hbit : pixelBit y ≠ pixelBit y' := fun hbit => hne (Prod.ext_iff.2 (pixel_inj hc h h' hbyte hbit))
    simp only [← hbyte, memRead_memWrite_same, memWrite_memWrite_same]
    rw [setBit_comm _ (pixelBit_lt y) (pixelBit_lt y') hbit]
  · rw [memRead_memWrite_ne (Ne.symm hbyte), memRead_memWrite_ne hbyte, memWrite_comm m hbyte]

/-- Every byte of a store all of whose pixels have one value is 0xFF or 0x00, since every bit of it is a pixel (R53). -/
theorem memRead_of_uniform {c : Config} (hc : c.Valid) {m : Memory} {b : Bool}
    (h : ∀ x y, inBounds c x y = true → readPixel c m x y = b) {a : Nat} (ha : a < c.fbBytes) :
    memRead m a = if b then 0xFF#8 else 0x00#8 := by
  refine eq_of_all_bits fun k hk => ?_
  obtain ⟨x, y, hin, rfl, rfl⟩ := pixel_surj hc ha hk
  exact h x y hin

/-- Two FB.WRITE of in-bounds pixels, one after the other. -/
theorem execAll_fbWrite_fbWrite {s : State} (hs : s.ready = true) {x y x' y' : Int} (h : inBounds Config.b2040 x y = true)
    (h' : inBounds Config.b2040 x' y' = true) (b b' : Bool) :
    execAll [.fbWrite x y b, .fbWrite x' y' b'] s =
      .next ((s.afterStore (writePixel Config.b2040 s.fb x y b)).afterStore
        (writePixel Config.b2040 (writePixel Config.b2040 s.fb x y b) x' y' b')) := by
  have hs' : (s.afterStore (writePixel Config.b2040 s.fb x y b)).ready = true := (State.afterStore_ready ..).trans hs
  rw [execAll_cons (exec_fbWrite_inBounds hs h b), execAll_cons (exec_fbWrite_inBounds hs' h' b'), State.afterStore_fb, execAll]

/-- FB.WRITE of one value to in-bounds pixels, one after the other: those pixels have it, every other pixel keeps its own
(R103 (a), (d)). -/
theorem execAll_fbWrites (b : Bool) (pixels : List (Int × Int)) {s : State} (hs : s.ready = true)
    (hpixels : ∀ p ∈ pixels, inBounds Config.b2040 p.1 p.2 = true) :
    ∃ t, execAll (pixels.map fun p => .fbWrite p.1 p.2 b) s = .next t ∧
      ∀ x y, inBounds Config.b2040 x y = true →
        readPixel Config.b2040 t.fb x y = if (x, y) ∈ pixels then b else readPixel Config.b2040 s.fb x y := by
  induction pixels generalizing s with
  | nil => exact ⟨s, rfl, fun _ _ _ => rfl⟩
  | cons p ps ih =>
    obtain ⟨hp, hps⟩ := List.forall_mem_cons.1 hpixels
    obtain ⟨t, hexec, hread⟩ := ih (s := s.afterStore (writePixel Config.b2040 s.fb p.1 p.2 b)) hs hps
    refine ⟨t, ?_, fun x y hin => ?_⟩
    · rw [List.map_cons, execAll_cons (exec_fbWrite_inBounds hs hp b), hexec]
    · rw [hread x y hin, State.afterStore_fb, readPixel_writePixel Config.b2040_valid s.fb b hp hin]
      by_cases hmem : (x, y) ∈ ps <;> simp [hmem, Prod.ext_iff]

end Sys2Proof.Machine

namespace Sys2Proof.Proofs

open Sys2Proof.Machine Sys2Proof.Safety

/-- Settles O17: the store is written at the pixel's byte, and there at the pixel's bit (`getLsbD_setBit`). -/
theorem fbWriteStoresOneBit : Obligations.FbWriteStoresOneBit := by
  intro s x y b hs hin
  refine ⟨writePixel Config.b2040 s.fb x y b, exec_fbWrite_inBounds hs hin b, ?_, fun k hk hne => ?_,
    fun a ha => memRead_writePixel_ne ha s.fb b⟩
  · rw [memRead_writePixel_same, getLsbD_setBit _ (pixelBit_lt y) b _ (pixelBit_lt y), if_pos rfl]
  · rw [memRead_writePixel_same, getLsbD_setBit _ (pixelBit_lt y) b k hk, if_neg hne]

/-- Settles O24: `writePixel_comm` and `writePixel_writePixel_same`; the responses and the time that goes by are those of two
writes in either order. -/
theorem pixelWritesCommute : Obligations.PixelWritesCommute := by
  intro s x y x' y' b b' hs hin hin'
  refine ⟨fun hne => ?_, _, _, execAll_fbWrite_fbWrite hs hin hin b b', exec_fbWrite_inBounds hs hin b', ?_⟩
  · rw [execAll_fbWrite_fbWrite hs hin hin', execAll_fbWrite_fbWrite hs hin' hin,
      writePixel_comm Config.b2040_valid s.fb hin hin' hne]
    exact congrArg _ (State.afterStore_afterStore ..)
  · exact writePixel_writePixel_same ..

/-- Settles O25: after the writes every in-bounds pixel has the value (`execAll_fbWrites`), so every bit of every byte has it
(`memRead_of_uniform`). -/
theorem fillAfterClear : Obligations.FillAfterClear := by
  intro s pixels b hs hpixels hall
  have hready : (s.afterStore (memZero Config.b2040)).ready = true := (State.afterStore_ready ..).trans hs
  obtain ⟨t, hexec, hread⟩ := execAll_fbWrites b pixels hready hpixels
  refine ⟨t, (execAll_cons (exec_fbClear hs) _).trans hexec, fun a ha => ?_⟩
  exact memRead_of_uniform Config.b2040_valid (fun x y hin => (hread x y hin).trans (if_pos (hall x y hin))) ha

/-- Settles O20: both operations write the cleared store (`memRead_memZero`). -/
theorem clearZeroesEveryByte : Obligations.ClearZeroesEveryByte := by
  intro s hs
  refine ⟨memZero Config.b2040, exec_fbClear hs, ?_, fun a ha => memRead_memZero ha⟩
  exact (exec_daClearbuf s).trans (exec_fbClear hs)

/-- Settles O21: in bounds the response is by the draw (`pixelQuery_inBounds`), out of bounds the diagnostic comes before it
(`pixelQuery_outOfBounds`). -/
theorem queryNeverWrong : Obligations.QueryNeverWrong := by
  intro s x y hs
  rw [exec_fbQuery hs]
  refine ⟨fun hin => ?_, fun hout => ?_⟩
  · rw [pixelQuery_inBounds hin]
    exact ⟨fun havail => by rw [havail]; rfl, fun havail => by rw [havail]; rfl⟩
  · rw [pixelQuery_outOfBounds hout]
    simp only [State.elapse, State.respond, State.emit, List.append_assoc, List.singleton_append]

/-- Settles O28: every pixel of the cleared store is zero (`readPixel_memZero`), the default black (R8). -/
theorem clearedBufferIsBlack : Obligations.ClearedBufferIsBlack := by
  intro s hs
  refine ⟨_, (exec_daClearbuf s).trans (exec_fbClear hs), fun x y hin => ?_⟩
  rw [State.afterStore_fb, readPixel_memZero Config.b2040_valid hin]
  rfl

end Sys2Proof.Proofs
end

section
/-! SUPPORT. What a request that is taken leaves alone (40_framebuffer.md R100 to R102, 41_display_adapter.md R110 to R112,
42_controller_ops.md R120, R130): the events the panel sees, and which requests touch the controller's registers. -/

namespace Sys2Proof.Machine

open Sys2Proof Sys2Proof.Safety

/-- The panel does not see a response (R16). -/
theorem panelTrace_respond (r : Response) (s : State) : panelTrace (s.respond r).trace = panelTrace s.trace := by
  simp [panelTrace, isPanelEvent]

/-- The panel does not see a diagnostic (R16, R161). -/
theorem panelTrace_boundsError (x y : Int) (s : State) :
    panelTrace (raise (.boundsError x y) s).trace = panelTrace s.trace := by
  simp [raise, panelTrace, isPanelEvent]

theorem panelTrace_pixelWrite (c : Config) (x y : Int) (b : Bool) (s : State) :
    panelTrace (pixelWrite c x y b s).trace = panelTrace s.trace := by
  rw [pixelWrite, panelTrace_respond]
  split
  · rfl
  · exact panelTrace_boundsError x y s

theorem panelTrace_clearAll (c : Config) (s : State) : panelTrace (clearAll c s).trace = panelTrace s.trace :=
  panelTrace_respond .ok { s with fb := memZero c }

theorem panelTrace_pixelQuery (c : Config) (x y : Int) (s : State) :
    panelTrace (pixelQuery c x y s).trace = panelTrace s.trace := by
  unfold pixelQuery
  split
  · exact panelTrace_respond ..
  · rw [panelTrace_respond, panelTrace_boundsError]

/-- A request that starts a controller operation is no framebuffer operation (R72). -/
theorem started_not_framebuffer {s : State} {i : Instr} {p : OpKind × Operand} (h : started s i = some p) :
    ¬ WritesFramebuffer i ∧ ∀ x y, i ≠ .fbQuery x y := by
  cases i with
  | daPush | ctReset | ctInit | ctSendframe | ctCmd => exact ⟨id, nofun⟩
  | _ => cases h

/-- A host operation whose request is taken is a framebuffer operation, which touches the store, where it writes it, and the
trace, or a controller operation, which touches the controller's registers and the trace; the panel sees nothing of either. -/
theorem exec_host_frame {i : Instr} (hi : i.isHostOp = true) {s t : State} (h : exec i s = .next t) :
    (∃ fb tr, t = { s with fb := fb, trace := tr }.elapse 1 ∧ panelTrace tr = panelTrace s.trace ∧
      (fb = s.fb ∨ WritesFramebuffer i)) ∨
    (¬ WritesFramebuffer i ∧ (∀ x y, i ≠ .fbQuery x y) ∧ ∃ st op opnd upc tr,
      t = { s with st := st, op := op, opnd := opnd, upc := upc, trace := tr }.elapse 1 ∧
      panelTrace tr = panelTrace s.trace) := by
  obtain ⟨-, -, hcases⟩ := exec_host_cases hi h
  rcases hcases with ⟨x, y, b, hwrite, rfl⟩ | ⟨hclear, rfl⟩ | ⟨x, y, -, rfl⟩ | ⟨o, d, hstarted, -, rfl⟩ | ⟨rfl, -, rfl⟩
  · refine .inl ⟨_, _, by rw [pixelWrite_eq], panelTrace_pixelWrite .., .inr ?_⟩
    obtain rfl | ⟨col, rfl, -⟩ := hwrite <;> trivial
  · refine .inl ⟨memZero Config.b2040, _, by rw [clearAll_eq], panelTrace_clearAll .., .inr ?_⟩
    obtain rfl | rfl := hclear <;> trivial
  · exact .inl ⟨s.fb, _, by rw [pixelQuery_eq], panelTrace_pixelQuery .., .inl rfl⟩
  · obtain ⟨hnot, hquery⟩ := started_not_framebuffer hstarted
    exact .inr ⟨hnot, hquery, _, _, _, _, s.trace, rfl, rfl⟩
  · exact .inr ⟨id, nofun, .poweredOff, s.op, s.opnd, s.upc, _, rfl, panelTrace_respond .ok s⟩

end Sys2Proof.Machine

namespace Sys2Proof.Proofs

open Sys2Proof.Machine Sys2Proof.Safety

/-- Settles O55: `exec_host_frame`; what a framebuffer operation touches is not the controller's, and what a controller operation
touches is not the store. -/
theorem hostOperationFrame : Obligations.HostOperationFrame := by
  intro i s t hi hexec
  rcases exec_host_frame hi hexec with
    ⟨fb, tr, rfl, htrace, hfb⟩ | ⟨hnot, hquery, st, op, opnd, upc, tr, rfl, htrace⟩
  · refine ⟨rfl, rfl, rfl, rfl, rfl, rfl, htrace, fun _ => ⟨rfl, rfl, rfl, rfl⟩, fun _ _ _ => ⟨rfl, rfl, rfl, rfl⟩,
      fun hnot a => ?_⟩
    rw [State.elapse_fb, hfb.resolve_right hnot]
  · exact ⟨rfl, rfl, rfl, rfl, rfl, rfl, htrace, fun h => absurd h hnot, fun x y h => absurd h (hquery x y), fun _ _ => rfl⟩

end Sys2Proof.Proofs
end

section
/-! SUPPORT. The display adapter (41_display_adapter.md R110 to R113): what a ready block answers to DA.PIXEL and DA.PUSH, and
what a list of DA.PIXEL leaves in the store and on the trace. -/

namespace Sys2Proof.Machine

open Sys2Proof Sys2Proof.Safety

/-! ## What a ready block answers -/

/-- An accepted operation is in progress after one step, at its first micro-op (R120). -/
theorem accept_of_allowed {s : State} {o : OpKind} (hs : s.ready = true) (hallowed : o.allowed s.st = true) (d : Operand) :
    accept o d s = .next ({ s with st := o.stAccepted s.st, op := some o, opnd := d, upc := 0 }.elapse 1) := by
  rw [accept, if_pos hs, if_pos hallowed]

/-- DA.PIXEL is FB.WRITE of the colour's bit (R110). -/
theorem exec_daPixel_eq_fbWrite (x y : Int) (col : Color) (s : State) :
    exec (.daPixel x y col) s = exec (.fbWrite x y (Config.b2040.bitOf col)) s := rfl

/-- The bit of On is the one the panel does not show black (R8). -/
theorem bitOf_on {c : Config} (hc : c.Valid) : c.bitOf .on = !c.blackBit :=
  Bool.eq_not.2 (hc.bit_off ▸ hc.bit_on)

/-! ## A draw call -/

/-- The store after one element of a draw list: an element out of bounds leaves it as it was (R110). -/
def drawPixel (m : Memory) (p : Int × Int × Color) : Memory :=
  if inBounds Config.b2040 p.1 p.2.1 then writePixel Config.b2040 m p.1 p.2.1 (Config.b2040.bitOf p.2.2) else m

/-- The events of one element of a draw list (R110, R161). -/
def drawEvents (p : Int × Int × Color) : List Event :=
  if inBounds Config.b2040 p.1 p.2.1 then [.rsp .ok] else [.diag 1 p.1 p.2.1, .rsp .ok]

/-- The block after a draw list, whose elements take a step each (R79, R113). -/
def State.afterDraw (pixels : List (Int × Int × Color)) (s : State) : State :=
  { s with fb := pixels.foldl drawPixel s.fb, trace := s.trace ++ pixels.flatMap drawEvents }.elapse pixels.length

theorem State.afterDraw_nil (s : State) : s.afterDraw [] = s := by
  simp [State.afterDraw, State.elapse]

theorem State.afterDraw_cons (p : Int × Int × Color) (ps : List (Int × Int × Color)) (s : State) :
    s.afterDraw (p :: ps) = (s.afterDraw [p]).afterDraw ps := by
  simp [State.afterDraw, State.elapse, Nat.add_comm, Nat.add_left_comm]

theorem exec_daPixel {s : State} (hs : s.ready = true) (p : Int × Int × Color) :
    exec (.daPixel p.1 p.2.1 p.2.2) s = .next (s.afterDraw [p]) := by
  rw [exec, execDaPixel, immediate_of_ready hs]
  by_cases hin : inBounds Config.b2040 p.1 p.2.1 = true
  · simp [pixelWrite, State.afterDraw, drawPixel, drawEvents, hin, State.respond, State.emit]
  · simp [pixelWrite, State.afterDraw, drawPixel, drawEvents, hin, raise, State.respond, State.emit]

/-- A ready block answers a draw list of any length (R113). -/
theorem draw_of_ready (pixels : List (Int × Int × Color)) {s : State} (hs : s.ready = true) :
    draw pixels s = .next (s.afterDraw pixels) := by
  induction pixels generalizing s with
  | nil => exact congrArg _ (State.afterDraw_nil s).symm
  | cons p ps ih =>
    have hready : (s.afterDraw [p]).ready = true := hs
    calc draw (p :: ps) s = draw ps (s.afterDraw [p]) := execAll_cons (exec_daPixel hs p) _
      _ = .next (s.afterDraw (p :: ps)) := by rw [ih hready, ← State.afterDraw_cons]

/-- The last element of a draw list decides, if it is the pixel's (R113). -/
theorem lastColor_concat (pixels : List (Int × Int × Color)) (p : Int × Int × Color) (x y : Int) :
    lastColor (pixels ++ [p]) x y = if x = p.1 ∧ y = p.2.1 then some p.2.2 else lastColor pixels x y := by
  rw [lastColor, List.reverse_concat, List.find?_cons]
  by_cases h : x = p.1 ∧ y = p.2.1
  · have hnames : (p.1 == x && p.2.1 == y) = true := by simp [h]
    rw [hnames, if_pos h, Option.map_some]
  · have hother : (p.1 == x && p.2.1 == y) = false := by simpa [@eq_comm _ p.1, @eq_comm _ p.2.1] using h
    rw [hother, if_neg h, lastColor]

/-- An element of a draw list changes the in-bounds pixel it names and no other (R110). -/
theorem readPixel_drawPixel (m : Memory) (p : Int × Int × Color) {x y : Int} (hin : inBounds Config.b2040 x y = true) :
    readPixel Config.b2040 (drawPixel m p) x y =
      if x = p.1 ∧ y = p.2.1 then Config.b2040.bitOf p.2.2 else readPixel Config.b2040 m x y := by
  unfold drawPixel
  split
  · exact readPixel_writePixel Config.b2040_valid m _ ‹_› hin
  · have hne : ¬ (x = p.1 ∧ y = p.2.1) := by
      rintro ⟨rfl, rfl⟩
      contradiction
    rw [if_neg hne]

/-- After a draw list an in-bounds pixel has the bit of its last colour, if the list names it (R113). -/
theorem readPixel_draw (pixels : List (Int × Int × Color)) (m : Memory) {x y : Int}
    (hin : inBounds Config.b2040 x y = true) :
    readPixel Config.b2040 (pixels.foldl drawPixel m) x y =
      (lastColor pixels x y).elim (readPixel Config.b2040 m x y) Config.b2040.bitOf := by
  induction pixels using List.reverseRecOn with
  | nil => rfl
  | append_singleton ps p ih =>
    rw [List.foldl_concat, readPixel_drawPixel _ p hin, lastColor_concat, ih]
    split <;> rfl

end Sys2Proof.Machine

namespace Sys2Proof.Proofs

open Sys2Proof.Machine Sys2Proof.Safety

/-- Settles O18: DA.PIXEL is FB.WRITE of the colour's bit, so it does what O17 says; the bit is the one R8 asks for. -/
theorem daPixelStoresTheColour : Obligations.DaPixelStoresTheColour := by
  intro s x y col hs hin
  obtain ⟨fb, hexec, hbit, hrest⟩ := fbWriteStoresOneBit s x y (Config.b2040.bitOf col) hs hin
  refine ⟨fb, (exec_daPixel_eq_fbWrite x y col s).trans hexec, hbit.trans ?_, hrest⟩
  cases col with
  | off => exact Config.b2040_valid.bit_off
  | on => exact bitOf_on Config.b2040_valid

/-- Settles O26: `draw_of_ready` for the block as a whole, `readPixel_draw` for the pixels. -/
theorem drawKeepsLastColour : Obligations.DrawKeepsLastColour := by
  intro s pixels hs
  refine ⟨pixels.foldl drawPixel s.fb, draw_of_ready pixels hs, fun x y hin => ?_⟩
  rw [readPixel_draw pixels s.fb hin]
  cases lastColor pixels x y <;> rfl

/-- Settles O27: DA.PUSH is the acceptance of SENDFRAME, with `memFrame` as its frame. -/
theorem pushSendsRawBytes : Obligations.PushSendsRawBytes := by
  intro s hs hidle
  have hallowed : OpKind.sendFrame.allowed s.st = true := beq_iff_eq.2 hidle
  exact ⟨memFrame Config.b2040 s.fb, accept_of_allowed hs hallowed _, memFrame_length .., fun j hj => memFrame_getElem? s.fb hj⟩

end Sys2Proof.Proofs
end

section
/-! SUPPORT. The micro-ops that do not complete (42_controller_ops.md R124, R125), and the delays of a step (R131,
70_reset_and_hazards.md R195). -/

namespace Sys2Proof.Machine

open Sys2Proof Sys2Proof.Safety

/-! ## Micro-ops that do not complete -/

/-- A `TX` that the panel answers `busfault` (R124, R166). -/
theorem microOp_tx_busFault (c : Config) {s : State} (h : s.move.txFault = true) (b : Byte) :
    microOp c (.tx b) s = (raiseFatal .busFault s).elapse 1 := by
  rw [microOp, transmit, if_pos h, raise]

/-- A busy wait holds while the line is asserted and no timeout fires (R125). -/
theorem microOp_waitBusy_holds {c : Config} {s : State} (hbusy : s.move.busy = true)
    (hquiet : c.busyTimeout = none ∨ s.move.timeout = false) : microOp c .waitBusy s = s.elapse 1 := by
  have hno : ¬ (s.move.timeout && c.busyTimeout.isSome) = true := by
    rcases hquiet with h | h <;> simp [h]
  rw [microOp, busyWait, if_pos hbusy, if_neg hno]

/-- A busy wait at which a timeout that is set fires (R163). -/
theorem microOp_waitBusy_timeout {c : Config} {s : State} (hbusy : s.move.busy = true) (hset : c.busyTimeout ≠ none)
    (hfires : s.move.timeout = true) : microOp c .waitBusy s = (raiseFatal .protocolTimeout s).elapse 1 := by
  have hyes : (s.move.timeout && c.busyTimeout.isSome) = true := by
    rw [hfires, Bool.true_and, Option.isSome_iff_ne_none]
    exact hset
  rw [microOp, busyWait, if_pos hbusy, if_pos hyes, raise]

/-! ## Delays -/

@[simp] theorem delaysLong_append {a b : List Event} : DelaysLong (a ++ b) ↔ DelaysLong a ∧ DelaysLong b := by
  simp only [DelaysLong, List.mem_append, or_imp, forall_and]

@[simp] theorem delaysLong_nil : DelaysLong [] := nofun

@[simp] theorem delaysLong_rsp {r : Response} {tr : List Event} : DelaysLong (.rsp r :: tr) ↔ DelaysLong tr := by
  simp [DelaysLong]

@[simp] theorem delaysLong_diag {code : Nat} {x y : Int} {tr : List Event} :
    DelaysLong (.diag code x y :: tr) ↔ DelaysLong tr := by
  simp [DelaysLong]

theorem delaysLong_respond {r : Response} {s : State} (h : DelaysLong s.trace) : DelaysLong (s.respond r).trace := by
  simpa using h

@[simp] theorem delaysLong_pixelWrite (c : Config) (x y : Int) (b : Bool) (s : State) :
    DelaysLong (pixelWrite c x y b s).trace ↔ DelaysLong s.trace := by
  unfold pixelWrite
  split <;> simp [raise]

@[simp] theorem delaysLong_clearAll (c : Config) (s : State) :
    DelaysLong (clearAll c s).trace ↔ DelaysLong s.trace := by
  simp [clearAll]

@[simp] theorem delaysLong_pixelQuery (c : Config) (x y : Int) (s : State) :
    DelaysLong (pixelQuery c x y s).trace ↔ DelaysLong s.trace := by
  unfold pixelQuery
  split <;> simp [raise]

/-- No host operation makes a delay when its request is taken (R120). -/
theorem delaysLong_exec_host {i : Instr} (hi : i.isHostOp = true) {s t : State} (h : exec i s = .next t)
    (hlong : DelaysLong s.trace) : DelaysLong t.trace := by
  obtain ⟨-, -, hcases⟩ := exec_host_cases hi h
  rcases hcases with ⟨x, y, b, -, rfl⟩ | ⟨-, rfl⟩ | ⟨x, y, -, rfl⟩ | ⟨o, d, -, -, rfl⟩ | ⟨-, -, rfl⟩
  · exact (delaysLong_pixelWrite ..).2 hlong
  · exact (delaysLong_clearAll Config.b2040 s).2 hlong
  · exact (delaysLong_pixelQuery ..).2 hlong
  · exact hlong
  · exact delaysLong_respond hlong

@[simp] theorem delay_not_mem_xact (tmin : Nat) (r : Byte) (p : List Byte) : .delay tmin ∉ xact r p := by
  simp [xact]

/-- Only CT.RESET delays, by the two bounds of R11, which are at least ten milliseconds (R126). -/
theorem tenMs_le_of_delay_mem_mprog {c : Config} (hc : c.Valid) {o : OpKind} {d : Operand} {tmin : Nat}
    (h : .delay tmin ∈ mprog c o d) : Config.tenMs ≤ tmin := by
  cases o with
  | reset =>
    obtain rfl | rfl : tmin = c.rstLow ∨ tmin = c.rstSettle := by simpa [mprog, resetProgram] using h
    · exact hc.rst_low
    · exact hc.rst_settle
  | init => simp [mprog, initProgram, xactInit, xactBare] at h
  | sendFrame => cases d <;> simp [mprog, sendFrameProgram, xactBare] at h
  | cmd => cases d <;> simp [mprog] at h

/-- A micro-op that completes makes no delay but its own, which is no shorter than its bound (R131). -/
theorem delaysLong_afterMicroOp {m : MicroOp} {s : State} (hm : ∀ tmin, m = .delay tmin → Config.tenMs ≤ tmin)
    (hlong : DelaysLong s.trace) : DelaysLong (afterMicroOps [m] s).trace := by
  have htrace : (afterMicroOps [m] s).trace = s.trace ++ [eventOf (s.moveAt 0) m] := rfl
  rw [htrace, delaysLong_append]
  refine ⟨hlong, fun d hd => ?_⟩
  have hevent := List.mem_singleton.1 hd
  cases m with
  | delay tmin =>
    obtain rfl : d = tmin + (s.moveAt 0).overrun := Event.delay.inj hevent
    exact Nat.le_add_right_of_le (hm tmin rfl)
  | cs | dc | rst | tx | waitBusy => cases hevent

theorem delaysLong_operationStep {c : Config} (hc : c.Valid) (o : OpKind) {s : State} (hlong : DelaysLong s.trace) :
    DelaysLong (operationStep c o s).trace := by
  rcases operationStep_cases c o s with
    ⟨m, hm, -, heq⟩ | ⟨-, -, -, heq⟩ | ⟨b, -, -, heq⟩ | ⟨-, -, -, heq⟩ | ⟨-, heq⟩ <;> rw [heq]
  · refine delaysLong_afterMicroOp (fun tmin hdelay => ?_) hlong
    subst hdelay
    exact tenMs_le_of_delay_mem_mprog hc (List.mem_of_getElem? hm)
  · exact hlong
  · exact delaysLong_respond hlong
  · exact delaysLong_respond hlong
  · exact delaysLong_respond hlong

end Sys2Proof.Machine

namespace Sys2Proof.Proofs

open Sys2Proof.Machine Sys2Proof.Safety

/-- Settles O54: of what a step can be (`step_cases`), only an operation in progress makes a delay, and that no shorter than its
bound (`delaysLong_operationStep`). -/
theorem delaysAtLeastTenMs : Obligations.DelaysAtLeastTenMs := by
  intro s t hlong hstep
  obtain ⟨-, -, hcases⟩ := step_cases hstep
  rcases hcases with ⟨o, -, rfl⟩ | ⟨-, rfl⟩ | ⟨-, r, rest, i, -, hdecode, hexec⟩
  · exact delaysLong_operationStep Config.b2040_valid o hlong
  · exact hlong
  · exact delaysLong_exec_host (decodeRequest_isHostOp hdecode) hexec hlong

/-- Settles O8: the block runs the micro-op at `upc` (O7), and a line drive reads no input. -/
theorem lineDriveStep : Obligations.LineDriveStep :=
  fun s o _ hf hr ho =>
    ⟨stepRunsMicroOp s o _ hf hr ho, stepRunsMicroOp s o _ hf hr ho, stepRunsMicroOp s o _ hf hr ho⟩

/-- Settles O9: the transmit completes on `ok` (`microOp_completes`) and takes BusFault on `busfault` (`microOp_tx_busFault`). -/
theorem transmitStep : Obligations.TransmitStep := by
  intro s o b hf hr ho hm
  rw [stepRunsMicroOp s o _ hf hr ho hm]
  refine ⟨fun hok => ?_, fun hfault => ?_⟩
  · rw [microOp_completes (m := .tx b) _ hok]
    rfl
  · rw [microOp_tx_busFault _ hfault]
    rfl

/-- Settles O10: the wait passes (`microOp_completes`), holds (`microOp_waitBusy_holds`) or takes ProtocolTimeout
(`microOp_waitBusy_timeout`); this machine sets no `BUSY_TIMEOUT`. -/
theorem busyWaitStep : Obligations.BusyWaitStep := by
  have hpass : ∀ (c : Config) (s : State), s.move.busy = false → microOp c .waitBusy s = afterMicroOps [.waitBusy] s :=
    fun c s hfree => microOp_completes (m := .waitBusy) c hfree
  refine ⟨fun s o hf hr ho hm => ?_, fun c s => ⟨hpass c s, microOp_waitBusy_holds, microOp_waitBusy_timeout⟩⟩
  rw [stepRunsMicroOp s o _ hf hr ho hm]
  exact ⟨fun hfree => congrArg _ (hpass _ s hfree), fun hbusy => congrArg _ (microOp_waitBusy_holds hbusy (.inl rfl))⟩

/-- Settles O11: a delay completes whatever the environment does, with the overrun it draws. -/
theorem delayStep : Obligations.DelayStep := by
  rintro s o tmin _ hf hr ho hm rfl
  exact ⟨Nat.le_add_right .., stepRunsMicroOp s o _ hf hr ho hm⟩

/-- Settles O12: with no micro-op left the step is the completion (`step_complete`), which takes `st` from the table of R23. -/
theorem completionStep : Obligations.CompletionStep := by
  intro s o hf hr ho hend
  rw [step_complete hf hr ho (List.getElem?_eq_none_iff.2 hend.ge)]
  cases o <;> rfl

end Sys2Proof.Proofs
end

section
/-! SUPPORT. What a ready block answers to the controller requests (42_controller_ops.md R120, R122, R130; 10_state.md R23). -/

namespace Sys2Proof.Machine

open Sys2Proof Sys2Proof.Safety

/-- A ready block refuses an operation that the table of R23 has no row for (R122). -/
theorem accept_outOfSequence {s : State} {o : OpKind} (hs : s.ready = true) (hrow : o.allowed s.st = false) (d : Operand) :
    accept o d s = .refused .outOfSequence := by
  rw [accept, if_pos hs, if_neg (Bool.eq_false_iff.1 hrow)]

theorem exec_ctOff_of_idle {s : State} (hs : s.ready = true) (hidle : s.st = .idle) :
    exec .ctOff s = .next (({ s with st := .poweredOff }.respond .ok).elapse 1) := by
  rw [exec, execCtOff, if_pos hs, if_pos hidle]

/-- CT.OFF anywhere but in `Idle` is out of sequence (R122). -/
theorem exec_ctOff_outOfSequence {s : State} (hs : s.ready = true) (hidle : s.st ≠ .idle) :
    exec .ctOff s = .refused .outOfSequence := by
  rw [exec, execCtOff, if_pos hs, if_neg hidle]

@[simp] theorem pixelWrite_st (c : Config) (x y : Int) (b : Bool) (s : State) : (pixelWrite c x y b s).st = s.st := by
  rw [pixelWrite_eq]

@[simp] theorem pixelQuery_st (c : Config) (x y : Int) (s : State) : (pixelQuery c x y s).st = s.st := by
  rw [pixelQuery_eq]

end Sys2Proof.Machine

namespace Sys2Proof.Proofs

open Sys2Proof.Machine Sys2Proof.Safety

/-- Settles O29: each is `accept_of_allowed` at its row of the table of R23. -/
theorem controllerOperationsAccepted : Obligations.ControllerOperationsAccepted := by
  intro s hs
  refine ⟨fun hst => ?_, fun hst => ?_, fun hst frame => ?_, fun hst => ?_, fun hst reg payload => ?_⟩
  · exact accept_of_allowed (o := .reset) hs (beq_iff_eq.2 hst) .empty
  · exact accept_of_allowed (o := .init) hs (beq_iff_eq.2 hst) .empty
  · exact accept_of_allowed (o := .sendFrame) hs (beq_iff_eq.2 hst) (.frame frame)
  · exact accept_of_allowed (o := .sendFrame) hs (beq_iff_eq.2 hst) (.frame (memFrame Config.b2040 s.fb))
  · exact accept_of_allowed (o := .cmd) hs (bne_iff_ne.2 hst) (.command reg payload)

/-- Settles O30: each is `accept_outOfSequence`, at a state the table of R23 has no row for, or CT.OFF. -/
theorem outOfSequenceRefused : Obligations.OutOfSequenceRefused := by
  intro s hs
  refine ⟨fun hst => ?_, fun hst => ?_, fun hst frame => ?_, fun hst => ?_, exec_ctOff_outOfSequence hs,
    fun hst reg payload => ?_⟩
  · exact accept_outOfSequence (o := .reset) hs (beq_false_of_ne hst) .empty
  · exact accept_outOfSequence (o := .init) hs (beq_false_of_ne hst) .empty
  · exact accept_outOfSequence (o := .sendFrame) hs (beq_false_of_ne hst) (.frame frame)
  · exact accept_outOfSequence (o := .sendFrame) hs (beq_false_of_ne hst) (.frame (memFrame Config.b2040 s.fb))
  · exact accept_outOfSequence (o := .cmd) hs (bne_eq_false_iff_eq.2 hst) (.command reg payload)

/-- Settles O31: the block after CT.OFF is ready and powered off, so O30 refuses every controller request there, and the
the framebuffer operations are taken and leave `st`. -/
theorem offIsTerminal : Obligations.OffIsTerminal := by
  intro s hs hidle
  have hoff := exec_ctOff_of_idle hs hidle
  refine ⟨hoff, fun t ht => ?_⟩
  obtain rfl : ({ s with st := .poweredOff }.respond .ok).elapse 1 = t := Host.Outcome.next.inj (hoff.symm.trans ht)
  have hready : (({ s with st := .poweredOff }.respond .ok).elapse 1).ready = true := hs
  obtain ⟨hreset, hinit, hframe, hpush, hoff', hcmd⟩ := outOfSequenceRefused _ hready
  refine ⟨?_, hframe nofun, hcmd rfl, fun x y b col i hi => ?_⟩
  · simp only [List.forall_mem_cons]
    exact ⟨hpush nofun, hreset nofun, hinit nofun, hoff' nofun, nofun⟩
  · simp only [List.mem_cons, List.not_mem_nil, or_false] at hi
    obtain rfl | rfl | rfl | rfl | rfl := hi
    · exact ⟨_, immediate_of_ready hready _, pixelWrite_st ..⟩
    · exact ⟨_, immediate_of_ready hready _, rfl⟩
    · exact ⟨_, immediate_of_ready hready _, pixelQuery_st ..⟩
    · exact ⟨_, immediate_of_ready hready _, pixelWrite_st ..⟩
    · exact ⟨_, immediate_of_ready hready _, rfl⟩

end Sys2Proof.Proofs
end

section
/-! SUPPORT. The micro-programs of the controller operations (42_controller_ops.md R126 to R128): their lengths, their transmits
and where they wait. -/

namespace Sys2Proof.Machine

open Sys2Proof Sys2Proof.Safety

/-! ## Transmits -/

/-- The transmits of a list of micro-ops. -/
def transmits (ops : List MicroOp) : List MicroOp :=
  ops.filter fun m => match m with | .tx _ => true | _ => false

@[simp] theorem transmits_append (a b : List MicroOp) : transmits (a ++ b) = transmits a ++ transmits b :=
  List.filter_append ..

@[simp] theorem transmits_nil : transmits [] = [] := rfl

@[simp] theorem transmits_waitBusy (ops : List MicroOp) : transmits (.waitBusy :: ops) = transmits ops := rfl

/-- A transaction transmits its register and its payload (R140). -/
@[simp] theorem transmits_xact (r : Byte) (p : List Byte) : transmits (xact r p) = .tx r :: p.map .tx := by
  have hpayload : transmits (p.map .tx) = p.map .tx := by simp [transmits]
  rw [xact, transmits_append, transmits_append, hpayload]
  simp [transmits]

/-! ## Busy waits -/

@[simp] theorem waitBusy_not_mem_xact (r : Byte) (p : List Byte) : .waitBusy ∉ xact r p := by
  simp [xact]

theorem getElem?_ne_waitBusy {ops : List MicroOp} (h : .waitBusy ∉ ops) (k : Nat) : ops[k]? ≠ some .waitBusy :=
  fun hk => h (List.mem_of_getElem? hk)

/-- The busy waits of a list are the one after its first stretch without any, and those of the rest. -/
theorem waitBusy_at_iff {a b : List MicroOp} (ha : .waitBusy ∉ a) (k : Nat) :
    (a ++ .waitBusy :: b)[k]? = some .waitBusy ↔ k = a.length ∨ ∃ j, k = a.length + 1 + j ∧ b[j]? = some .waitBusy := by
  rcases Nat.lt_trichotomy k a.length with hlt | rfl | hgt
  · rw [List.getElem?_append_left hlt]
    exact iff_of_false (getElem?_ne_waitBusy ha k) (by omega)
  · simp
  · obtain ⟨j, rfl⟩ := Nat.exists_eq_add_of_lt hgt
    rw [List.getElem?_append_right (by omega)]
    have hrest : a.length + j + 1 - a.length = j + 1 := by omega
    rw [hrest, List.getElem?_cons_succ]
    refine ⟨fun h => .inr ⟨j, by omega, h⟩, fun h => ?_⟩
    obtain h | ⟨i, hi, h⟩ := h
    · omega
    · obtain rfl : i = j := by omega
      exact h

/-! ## CT.INIT -/

/-- The payloads of CT.INIT have the lengths of R10, and the three booster bytes are one (R35). -/
theorem initPayloads_of_valid {c : Config} (hc : c.Valid) :
    ∃ psr pwr0 pwr1 pwr2 pwr3 pwr4 btst pfs tse tcon cdi pll,
      c.payload .psr = [psr] ∧ c.payload .pwr = [pwr0, pwr1, pwr2, pwr3, pwr4] ∧ c.payload .btst = [btst, btst, btst] ∧
      c.payload .pfs = [pfs] ∧ c.payload .tse = [tse] ∧ c.payload .tcon = [tcon] ∧ c.payload .cdi = [cdi] ∧
      c.payload .pll = [pll] := by
  have hlen := hc.payload_length
  simp only [Config.initRegs, List.forall_mem_cons, Config.payloadLength, List.length_eq_one_iff] at hlen
  obtain ⟨⟨psr, hpsr⟩, hpwr, -, ⟨pfs, hpfs⟩, ⟨tse, htse⟩, ⟨tcon, htcon⟩, ⟨cdi, hcdi⟩, ⟨pll, hpll⟩, -⟩ := hlen
  obtain ⟨btst, hbtst⟩ := hc.booster_equal
  match hbytes : c.payload .pwr, hpwr with
  | [b0, b1, b2, b3, b4], _ =>
    exact ⟨psr, b0, b1, b2, b3, b4, btst, pfs, tse, tcon, cdi, pll, hpsr, rfl, hbtst, hpfs, htse, htcon, hcdi, hpll⟩

theorem length_xactInit {c : Config} (hc : c.Valid) {r : Reg} (hr : r ∈ Config.initRegs) :
    (xactInit c r).length = 5 + c.payloadLength r := by
  rw [xactInit, length_xact, hc.payload_length r hr]

@[simp] theorem length_xactBare (c : Config) (r : Reg) : (xactBare c r).length = 5 := length_xact ..

@[simp] theorem waitBusy_not_mem_xactInit (c : Config) (r : Reg) : .waitBusy ∉ xactInit c r := waitBusy_not_mem_xact _ _

@[simp] theorem waitBusy_not_mem_xactBare (c : Config) (r : Reg) : .waitBusy ∉ xactBare c r := waitBusy_not_mem_xact _ _

/-- The commands of CT.INIT up to PON (R127). -/
def initHead (c : Config) : List MicroOp := xactInit c .psr ++ xactInit c .pwr ++ xactBare c .pon

/-- The commands of CT.INIT after PON (R127). -/
def initTail (c : Config) : List MicroOp :=
  xactInit c .btst ++ xactInit c .pfs ++ xactInit c .tse ++ xactInit c .tcon ++ xactInit c .cdi ++ xactInit c .pll ++
    xactBare c .pof

theorem initProgram_eq (c : Config) : initProgram c = initHead c ++ .waitBusy :: (initTail c ++ [.waitBusy]) := by
  simp [initProgram, initHead, initTail]

theorem waitBusy_not_mem_initHead (c : Config) : .waitBusy ∉ initHead c := by simp [initHead]

theorem waitBusy_not_mem_initTail (c : Config) : .waitBusy ∉ initTail c := by simp [initTail]

theorem length_initHead {c : Config} (hc : c.Valid) : (initHead c).length = 21 := by
  simp (disch := decide) [initHead, length_xactInit hc, Config.payloadLength]

theorem length_initTail {c : Config} (hc : c.Valid) : (initTail c).length = 43 := by
  simp (disch := decide) [initTail, length_xactInit hc, Config.payloadLength]

theorem length_initProgram {c : Config} (hc : c.Valid) : (initProgram c).length = 66 := by
  simp [initProgram_eq, length_initHead hc, length_initTail hc]

/-- CT.INIT waits after PON and at its end (R127). -/
theorem waitBusy_at_initProgram {c : Config} (hc : c.Valid) (k : Nat) :
    (initProgram c)[k]? = some .waitBusy ↔ k = 21 ∨ k = 65 := by
  rw [initProgram_eq, waitBusy_at_iff (waitBusy_not_mem_initHead c), length_initHead hc]
  simp [waitBusy_at_iff (waitBusy_not_mem_initTail c), length_initTail hc]

/-- The ten registers and their fourteen payload bytes (R127). -/
theorem length_transmits_initProgram {c : Config} (hc : c.Valid) : (transmits (initProgram c)).length = 24 := by
  have hlen := hc.payload_length
  simp only [Config.initRegs, List.forall_mem_cons, Config.payloadLength] at hlen
  obtain ⟨hpsr, hpwr, hbtst, hpfs, htse, htcon, hcdi, hpll, -⟩ := hlen
  simp [initProgram, xactInit, xactBare, hpsr, hpwr, hbtst, hpfs, htse, htcon, hcdi, hpll]

/-! ## CT.SENDFRAME and DA.PUSH -/

/-- The commands of a transmission up to DRF (R128). -/
def sendFrameHead (c : Config) (frame : List Byte) : List MicroOp :=
  xactBare c .pon ++ xactBare c .ptou ++ xact (c.addr .dtm2) frame ++ xactBare c .dsp ++ xactBare c .drf

theorem sendFrameProgram_eq (c : Config) (frame : List Byte) :
    sendFrameProgram c frame = sendFrameHead c frame ++ .waitBusy :: xactBare c .pof := by
  simp [sendFrameProgram, sendFrameHead]

theorem waitBusy_not_mem_sendFrameHead (c : Config) (frame : List Byte) : .waitBusy ∉ sendFrameHead c frame := by
  simp [sendFrameHead]

theorem length_sendFrameHead (c : Config) (frame : List Byte) : (sendFrameHead c frame).length = 25 + frame.length := by
  simp only [sendFrameHead, List.length_append, length_xact, length_xactBare]
  omega

theorem length_sendFrameProgram (c : Config) (frame : List Byte) :
    (sendFrameProgram c frame).length = 31 + frame.length := by
  rw [sendFrameProgram_eq, List.length_append, length_sendFrameHead, List.length_cons, length_xactBare]
  omega

/-- The refresh is the one thing a transmission waits for (R128). -/
theorem waitBusy_at_sendFrameProgram (c : Config) (frame : List Byte) (k : Nat) :
    (sendFrameProgram c frame)[k]? = some .waitBusy ↔ k = 25 + frame.length := by
  have hpof : ∀ j : Nat, (xactBare c .pof)[j]? ≠ some .waitBusy := getElem?_ne_waitBusy (waitBusy_not_mem_xactBare c .pof)
  rw [sendFrameProgram_eq, waitBusy_at_iff (waitBusy_not_mem_sendFrameHead c frame), length_sendFrameHead]
  simp [hpof]

/-- Where a transaction transmits its payload (R140). -/
theorem payload_at_xact {r : Byte} {p : List Byte} {j : Nat} {b : Byte} (hb : p[j]? = some b) :
    (xact r p)[4 + j]? = some (.tx b) := by
  have hj : j < (p.map MicroOp.tx).length := by
    rw [List.length_map]
    exact (List.getElem?_eq_some_iff.1 hb).1
  have hhead : [MicroOp.cs .low, .dc .low, .tx r, .dc .high].length = 4 := rfl
  rw [xact, List.append_assoc, List.getElem?_append_right (by omega), hhead, Nat.add_sub_cancel_left,
    List.getElem?_append_left hj, List.getElem?_map, hb, Option.map_some]

/-- The frame comes after PON, PTOU and the first four micro-ops of DTM2 (R128, R153). -/
theorem frame_at_sendFrameProgram (c : Config) {frame : List Byte} {j : Nat} {b : Byte} (hb : frame[j]? = some b) :
    (sendFrameProgram c frame)[14 + j]? = some (.tx b) := by
  have hlen : (xactBare c .pon ++ xactBare c .ptou).length = 10 := rfl
  have hdtm2 : (xact (c.addr .dtm2) frame)[14 + j - 10]? = some (.tx b) := by
    rw [show 14 + j - 10 = 4 + j by omega]
    exact payload_at_xact hb
  have hin : 14 + j - 10 < (xact (c.addr .dtm2) frame).length := (List.getElem?_eq_some_iff.1 hdtm2).1
  simp only [sendFrameProgram, List.append_assoc]
  rw [← List.append_assoc, List.getElem?_append_right (by omega), hlen, List.getElem?_append_left hin, hdtm2]

/-- The six registers and the frame (R128). -/
theorem length_transmits_sendFrameProgram (c : Config) (frame : List Byte) :
    (transmits (sendFrameProgram c frame)).length = 6 + frame.length := by
  simp [sendFrameProgram, xactBare]
  omega

end Sys2Proof.Machine

namespace Sys2Proof.Proofs

open Sys2Proof.Machine Sys2Proof.Safety

/-- Settles O32: the program is `resetProgram`; the bounds are the constraints of R11. -/
theorem resetProgram : Obligations.ResetProgram :=
  fun _ _ hc => ⟨rfl, hc.rst_low, hc.rst_settle⟩

/-- Settles O33: the payloads have the lengths of R10 (`initPayloads_of_valid`), which puts the waits at their places
(`waitBusy_at_initProgram`). -/
theorem initProgram : Obligations.InitProgram := by
  intro c d hc
  obtain ⟨psr, pwr0, pwr1, pwr2, pwr3, pwr4, btst, pfs, tse, tcon, cdi, pll, hpsr, hpwr, hbtst, hpfs, htse, htcon, hcdi,
    hpll⟩ := initPayloads_of_valid hc
  refine ⟨psr, pwr0, pwr1, pwr2, pwr3, pwr4, btst, pfs, tse, tcon, cdi, pll, hpsr, hpwr, hbtst, hpfs, htse, htcon, hcdi, hpll,
    ?_, length_initProgram hc, waitBusy_at_initProgram hc,
    length_transmits_initProgram hc⟩
  simp only [mprog, Machine.initProgram, xactInit, hpsr, hpwr, hbtst, hpfs, htse, htcon, hcdi, hpll]
  rfl

/-- Settles O34: the place of the wait and of the frame's bytes are those of `waitBusy_at_sendFrameProgram` and
`frame_at_sendFrameProgram`. -/
theorem sendFrameProgram : Obligations.SendFrameProgram := by
  intro c frame hlen
  rw [← hlen]
  exact ⟨rfl, length_sendFrameProgram c frame, waitBusy_at_sendFrameProgram c frame,
    fun _ _ hb => frame_at_sendFrameProgram c hb, length_transmits_sendFrameProgram c frame⟩

end Sys2Proof.Proofs
end

section
/-! SUPPORT. A controller operation from its acceptance to its response (42_controller_ops.md R120 to R129). -/

namespace Sys2Proof.Machine

open Sys2Proof Sys2Proof.Safety

/-! ## Any operation -/

/-- The block after the step that accepts operation `o` with the operands `d` (R120). -/
def State.accepted (o : OpKind) (d : Operand) (s : State) : State :=
  { s with st := o.stAccepted s.st, op := some o, opnd := d, upc := 0 }.elapse 1

theorem State.moveAt_accepted (o : OpKind) (d : Operand) (s : State) (k : Nat) :
    (s.accepted o d).moveAt k = s.moveAt (k + 1) := by
  rw [State.accepted, State.moveAt_elapse, Nat.add_comm]
  exact State.moveAt_congr rfl rfl _

/-- The block after the step that answers operation `o`, whose micro-ops `ops` have all completed: the table's `st`, the lines as
the micro-ops left them, their events and OK (R23, R121). -/
def State.answered (o : OpKind) (ops : List MicroOp) (s : State) : State :=
  { s with
    st := o.stCompleted (o.stAccepted s.st), op := none, opnd := .empty, upc := 0
    csN := csAfter s.csN ops
    dc := dcAfter s.dc ops
    rstN := rstAfter s.rstN ops
    trace := s.trace ++ eventsFrom (s.elapse 1) ops ++ [.rsp .ok]
    moves := s.moves.drop (ops.length + 2)
    tick := s.tick + (ops.length + 2) }

theorem complete_afterMicroOps_accepted (o : OpKind) (d : Operand) (ops : List MicroOp) (s : State) :
    complete o (afterMicroOps ops (s.accepted o d)) = s.answered o ops := by
  have hevents : eventsFrom (s.accepted o d) ops = eventsFrom (s.elapse 1) ops := eventsFrom_congr rfl rfl ops
  rw [complete, afterMicroOps, hevents]
  simp [State.accepted, State.answered, State.respond, State.emit, State.elapse, Nat.add_comm, Nat.add_left_comm]

/-- An operation whose micro-ops the environment lets complete is accepted in one step, and answered one step for each micro-op
and one step more after that (R25, R120, R121). -/
theorem accepted_run {s : State} {o : OpKind} {d : Operand} (hs : s.ready = true) (hr : s.refused = false)
    (hallowed : o.allowed s.st = true)
    (hlets : ∀ k m, (mprog Config.b2040 o d)[k]? = some m → Lets (s.moveAt (k + 1)) m) :
    ∃ u, accept o d s = .next u ∧
      run ((mprog Config.b2040 o d).length + 1) u = .next (s.answered o (mprog Config.b2040 o d)) := by
  obtain ⟨-, hf⟩ := (State.ready_iff s).1 hs
  refine ⟨s.accepted o d, accept_of_allowed hs hallowed d, ?_⟩
  rw [← complete_afterMicroOps_accepted o d]
  refine run_operation (s := s.accepted o d) hf hr rfl (Nat.zero_le _) fun k m hm => ?_
  rw [State.moveAt_accepted]
  refine hlets k m ?_
  rwa [show (s.accepted o d).upc + k = k from Nat.zero_add k] at hm

/-! ## The programs -/

/-- A transaction completes if the panel takes its bytes, whatever else the environment does (R124, R140). -/
theorem lets_xact {f : Nat → Move} {r : Byte} {p : List Byte}
    (h : ∀ k, k = 2 ∨ 4 ≤ k ∧ k < 4 + p.length → (f k).txFault = false) {k : Nat} {m : MicroOp}
    (hm : (xact r p)[k]? = some m) : Lets (f k) m := by
  cases m with
  | tx b =>
    refine h k ?_
    match k with
    | 0 | 1 | 3 => cases hm
    | 2 => exact .inl rfl
    | j + 4 =>
      have hrest : (p.map MicroOp.tx ++ [.cs .high])[j]? = some (.tx b) := hm
      refine .inr ⟨by omega, ?_⟩
      by_contra hge
      rw [List.getElem?_append_right (by rw [List.length_map]; omega)] at hrest
      exact absurd (List.mem_of_getElem? hrest) (by simp)
  | waitBusy => exact absurd (List.mem_of_getElem? hm) (waitBusy_not_mem_xact r p)
  | cs | dc | rst | delay => trivial

@[simp] theorem csAfter_waitBusy (l : Level) : csAfter l [.waitBusy] = l := rfl
@[simp] theorem dcAfter_waitBusy (l : Level) : dcAfter l [.waitBusy] = l := rfl
@[simp] theorem rstAfter_waitBusy (l : Level) : rstAfter l [.waitBusy] = l := rfl
@[simp] theorem eventsFrom_waitBusy (s : State) : eventsFrom s [.waitBusy] = [.busyOk] := rfl

/-- The delays of CT.RESET are its bounds with the overruns that are drawn (R126, R131). -/
theorem eventsFrom_resetProgram (c : Config) (s : State) :
    eventsFrom s (resetProgram c) =
      [.rst .low, .delay (c.rstLow + (s.moveAt 1).overrun), .rst .high, .delay (c.rstSettle + (s.moveAt 3).overrun),
        .busyOk] := rfl

@[simp] theorem csAfter_initProgram (c : Config) (l : Level) : csAfter l (initProgram c) = .high := by
  simp only [initProgram, xactInit, xactBare, csAfter_append, csAfter_xact, csAfter_waitBusy]

@[simp] theorem dcAfter_initProgram (c : Config) (l : Level) : dcAfter l (initProgram c) = .high := by
  simp only [initProgram, xactInit, xactBare, dcAfter_append, dcAfter_xact, dcAfter_waitBusy]

@[simp] theorem rstAfter_initProgram (c : Config) (l : Level) : rstAfter l (initProgram c) = l := by
  simp only [initProgram, xactInit, xactBare, rstAfter_append, rstAfter_xact, rstAfter_waitBusy]

/-- CT.INIT makes no draw (R127). -/
theorem eventsFrom_initProgram (c : Config) (s : State) :
    eventsFrom s (initProgram c) =
      xactEvents (c.addr .psr) (c.payload .psr) ++ xactEvents (c.addr .pwr) (c.payload .pwr) ++
      xactEvents (c.addr .pon) [] ++ [.busyOk] ++ xactEvents (c.addr .btst) (c.payload .btst) ++
      xactEvents (c.addr .pfs) (c.payload .pfs) ++ xactEvents (c.addr .tse) (c.payload .tse) ++
      xactEvents (c.addr .tcon) (c.payload .tcon) ++ xactEvents (c.addr .cdi) (c.payload .cdi) ++
      xactEvents (c.addr .pll) (c.payload .pll) ++ xactEvents (c.addr .pof) [] ++ [.busyOk] := by
  simp only [initProgram, xactInit, xactBare, eventsFrom_append, eventsFrom_xact, eventsFrom_waitBusy]

@[simp] theorem csAfter_sendFrameProgram (c : Config) (frame : List Byte) (l : Level) :
    csAfter l (sendFrameProgram c frame) = .high := by
  simp only [sendFrameProgram, xactBare, csAfter_append, csAfter_xact]

@[simp] theorem dcAfter_sendFrameProgram (c : Config) (frame : List Byte) (l : Level) :
    dcAfter l (sendFrameProgram c frame) = .high := by
  simp only [sendFrameProgram, xactBare, dcAfter_append, dcAfter_xact]

@[simp] theorem rstAfter_sendFrameProgram (c : Config) (frame : List Byte) (l : Level) :
    rstAfter l (sendFrameProgram c frame) = l := by
  simp only [sendFrameProgram, xactBare, rstAfter_append, rstAfter_xact, rstAfter_waitBusy]

/-- A transmission makes no draw (R128). -/
theorem eventsFrom_sendFrameProgram (c : Config) (frame : List Byte) (s : State) :
    eventsFrom s (sendFrameProgram c frame) =
      xactEvents (c.addr .pon) [] ++ xactEvents (c.addr .ptou) [] ++ xactEvents (c.addr .dtm2) frame ++
      xactEvents (c.addr .dsp) [] ++ xactEvents (c.addr .drf) [] ++ [.busyOk] ++ xactEvents (c.addr .pof) [] := by
  simp only [sendFrameProgram, xactBare, eventsFrom_append, eventsFrom_xact, eventsFrom_waitBusy]

/-- The bytes DA.PUSH sends are a frame that lists them (R111). -/
theorem eq_memFrame {c : Config} {m : Memory} {frame : List Byte} (hlen : frame.length = c.fbBytes)
    (h : ∀ j, j < c.fbBytes → frame[j]? = some (memRead m j)) : frame = memFrame c m := by
  refine List.ext_getElem? fun j => ?_
  by_cases hj : j < c.fbBytes
  · rw [h j hj, memFrame_getElem? m hj]
  · rw [List.getElem?_eq_none (by omega), List.getElem?_eq_none (by rw [memFrame_length]; omega)]

end Sys2Proof.Machine

namespace Sys2Proof.Proofs

open Sys2Proof.Machine Sys2Proof.Safety

/-- Settles O36: the delays are the bounds of R11 with the overruns that are drawn, so only the wait at the program's end asks
something of the panel. -/
theorem resetRun : Obligations.ResetRun := by
  intro s hs hr hst hfree
  have hallowed : OpKind.reset.allowed s.st = true := beq_iff_eq.2 hst
  have hlets : ∀ k m, (mprog Config.b2040 .reset .empty)[k]? = some m → Lets (s.moveAt (k + 1)) m := fun k m hm => by
    match k with
    | 0 | 1 | 2 | 3 => cases hm; trivial
    | 4 => cases hm; exact hfree
    | _ + 5 => cases hm
  obtain ⟨u, haccept, hrun⟩ := accepted_run hs hr hallowed hlets
  have hvalid := Config.b2040_valid
  rw [State.answered, mprog, eventsFrom_resetProgram, List.append_assoc] at hrun
  exact ⟨u, _, _, haccept, Nat.le_add_right .., Nat.le_add_right .., Nat.le_add_right_of_le hvalid.rst_low,
    Nat.le_add_right_of_le hvalid.rst_settle, hrun⟩

/-- Settles O37: `accepted_run`; each transaction leaves chip-select and data/command high and makes no draw. -/
theorem initRun : Obligations.InitRun := by
  intro s hs hr hst hlets
  have hallowed : OpKind.init.allowed s.st = true := beq_iff_eq.2 hst
  obtain ⟨u, haccept, hrun⟩ := accepted_run hs hr hallowed hlets
  have hlen : (mprog Config.b2040 .init .empty).length = 66 := length_initProgram Config.b2040_valid
  rw [hlen] at hrun
  refine ⟨u, haccept, hrun.trans ?_⟩
  rw [State.answered, hlen, mprog, csAfter_initProgram, dcAfter_initProgram, rstAfter_initProgram, eventsFrom_initProgram,
    OpKind.stCompleted]

/-- Settles O38: DA.PUSH is CT.SENDFRAME of the framebuffer's bytes (R111), and the rest is as O37. -/
theorem sendFrameRun : Obligations.SendFrameRun := by
  intro s frame i hs hr hst hlets hframe hi
  have hallowed : OpKind.sendFrame.allowed s.st = true := beq_iff_eq.2 hst
  obtain ⟨u, haccept, hrun⟩ := accepted_run hs hr hallowed hlets
  have hexec : exec i s = accept .sendFrame (.frame frame) s := by
    obtain rfl | ⟨rfl, hbytes⟩ := hi
    · rfl
    · rw [eq_memFrame (c := Config.b2040) hframe hbytes]
      rfl
  have hlen : (mprog Config.b2040 .sendFrame (.frame frame)).length = 4767 := by
    rw [mprog, length_sendFrameProgram, hframe]
  rw [hlen] at hrun
  refine ⟨u, hexec.trans haccept, hrun.trans ?_⟩
  rw [State.answered, hlen, mprog, csAfter_sendFrameProgram, dcAfter_sendFrameProgram, rstAfter_sendFrameProgram,
    eventsFrom_sendFrameProgram, OpKind.stCompleted]

/-- Settles O39: the program is one transaction, which asks the panel for its bytes only (`lets_xact`). -/
theorem cmdRun : Obligations.CmdRun := by
  intro s reg payload hs hr hst hok
  have hallowed : OpKind.cmd.allowed s.st = true := bne_iff_ne.2 hst
  have htx : ∀ k, k = 2 ∨ 4 ≤ k ∧ k < 4 + payload.length → (s.moveAt (k + 1)).txFault = false := fun k hk =>
    hok (k + 1) (by omega)
  obtain ⟨u, haccept, hrun⟩ := accepted_run (o := .cmd) (d := .command reg payload) hs hr hallowed
    fun k m hm => lets_xact (f := fun k => s.moveAt (k + 1)) htx hm
  have hlen : (mprog Config.b2040 .cmd (.command reg payload)).length = 5 + payload.length := length_xact ..
  have hsteps : 6 + payload.length = 5 + payload.length + 1 := by omega
  have htime : 7 + payload.length = 5 + payload.length + 2 := by omega
  rw [hlen] at hrun
  rw [hsteps, htime]
  refine ⟨u, haccept, hrun.trans ?_⟩
  rw [State.answered, hlen, mprog, csAfter_xact, dcAfter_xact, rstAfter_xact, eventsFrom_xact, OpKind.stCompleted,
    OpKind.stAccepted]

end Sys2Proof.Proofs
end

section
/-! SUPPORT. The end of an operation in progress (42_controller_ops.md R133, 70_reset_and_hazards.md R199): each micro-op
completes or faults in one step, or waits until busy is deasserted. Bounds on the steps are in `ℕ∞`, so that one argument covers
a panel that answers within a bound and one that answers eventually. -/

namespace Sys2Proof.Machine

open Sys2Proof Sys2Proof.Safety

variable {o : OpKind} {d : Operand} {s t : State} {N B : ℕ∞}

/-! ## One micro-op -/

/-- Operation `o` is in progress with the operands `d`, and nothing stops the block (R17, R24). -/
structure InProgress (o : OpKind) (d : Operand) (s : State) : Prop where
  fault : s.fault = none
  refused : s.refused = false
  op : s.op = some o
  opnd : s.opnd = d

theorem InProgress.step_eq (h : InProgress o d s) : step s = .next (operationStep Config.b2040 o s) :=
  step_operation h.fault h.refused h.op

theorem InProgress.step_microOp (h : InProgress o d s) {m : MicroOp} (hm : (mprog Config.b2040 o d)[s.upc]? = some m) :
    step s = .next (microOp Config.b2040 m s) := by
  obtain rfl := h.opnd
  rw [h.step_eq, operationStep_microOp hm]

theorem InProgress.atWait (h : InProgress o d s) (hm : (mprog Config.b2040 o d)[s.upc]? = some .waitBusy) : AtWait s := by
  obtain rfl := h.opnd
  exact ⟨h.fault, program_of_op h.op ▸ hm⟩

theorem InProgress.elapse (h : InProgress o d s) (n : ℕ) : InProgress o d (s.elapse n) := ⟨h.fault, h.refused, h.op, h.opnd⟩

theorem InProgress.afterMicroOps (h : InProgress o d s) (ops : List MicroOp) : InProgress o d (afterMicroOps ops s) :=
  ⟨h.fault, h.refused, h.op, h.opnd⟩

theorem InProgress.run_wait_deasserted (h : InProgress o d s) (hm : (mprog Config.b2040 o d)[s.upc]? = some .waitBusy)
    (hfree : s.move.busy = false) : run 1 s = .next (Safety.afterMicroOps [.waitBusy] s) := by
  rw [run_succ (h.step_microOp hm), microOp_completes (m := .waitBusy) _ hfree, run_zero]

/-- A busy wait is over one step after busy is first deasserted (R125). -/
theorem InProgress.run_wait (h : InProgress o d s) (hm : (mprog Config.b2040 o d)[s.upc]? = some .waitBusy) {j : ℕ}
    (hj : (s.moveAt j).busy = false) :
    ∃ k, k ≤ j ∧ run (k + 1) s = .next (Safety.afterMicroOps [.waitBusy] (s.elapse k)) := by
  induction j generalizing s with
  | zero => exact ⟨0, le_rfl, h.run_wait_deasserted hm hj⟩
  | succ j ih =>
    cases hbusy : s.move.busy with
    | false => exact ⟨0, Nat.zero_le _, h.run_wait_deasserted hm hbusy⟩
    | true =>
      have hhold := microOp_waitBusy_holds (c := Config.b2040) hbusy (.inl rfl)
      obtain ⟨k, hk, hrun⟩ := ih (h.elapse 1) hm (by rwa [State.moveAt_elapse, Nat.add_comm])
      refine ⟨k + 1, by omega, ?_⟩
      rw [run_succ (h.step_microOp hm), hhold, hrun, State.elapse_elapse, Nat.add_comm]

/-- A micro-op completes or faults within `B` steps, if busy is deasserted within them where it waits (R123 to R125, R131). -/
theorem InProgress.advances (h : InProgress o d s) (hlt : s.upc < (mprog Config.b2040 o d).length) (hB : 1 ≤ B)
    (hwait : (mprog Config.b2040 o d)[s.upc]? = some .waitBusy → ∃ j : ℕ, j < B ∧ (s.moveAt j).busy = false) :
    ∃ k : ℕ, ∃ t, k ≤ B ∧ run k s = .next t ∧ (t.fault ≠ none ∨ InProgress o d t ∧ t.upc = s.upc + 1) := by
  obtain ⟨m, hm⟩ : ∃ m, (mprog Config.b2040 o d)[s.upc]? = some m := ⟨_, List.getElem?_eq_getElem hlt⟩
  have hstep : run 1 s = .next (microOp Config.b2040 m s) := run_succ (h.step_microOp hm) 0
  rcases microOp_cases Config.b2040 m s with ⟨-, heq⟩ | ⟨rfl, -⟩ | ⟨b, -, -, heq⟩ | ⟨-, -, -, heq⟩
  · exact ⟨1, _, hB, hstep.trans (congrArg _ heq), .inr ⟨h.afterMicroOps _, rfl⟩⟩
  · obtain ⟨j, hj, hfree⟩ := hwait hm
    obtain ⟨k, hk, hrun⟩ := h.run_wait hm hfree
    have hbound : ((k + 1 : ℕ) : ℕ∞) ≤ B := by
      rw [Nat.cast_add_one, ENat.add_one_le_iff (ENat.natCast_ne_top k)]
      exact (Nat.cast_le.2 hk).trans_lt hj
    exact ⟨k + 1, _, hbound, hrun, .inr ⟨(h.elapse k).afterMicroOps _, rfl⟩⟩
  · exact ⟨1, _, hB, hstep.trans (congrArg _ heq), .inl nofun⟩
  · exact ⟨1, _, hB, hstep.trans (congrArg _ heq), .inl nofun⟩

/-! ## The operation -/

/-- At every busy wait that the operation comes to within `N` steps, busy is deasserted within `B` (R133). -/
def WaitsEnd (o : OpKind) (d : Operand) (N B : ℕ∞) (s : State) : Prop :=
  ∀ (k : ℕ) t, k < N → run k s = .next t → InProgress o d t → (mprog Config.b2040 o d)[t.upc]? = some .waitBusy →
    ∃ j : ℕ, j < B ∧ (t.moveAt j).busy = false

theorem waitsEnd_of_responsive (h : PanelResponsive s) : WaitsEnd o d N ⊤ s := fun k t _ hrun ht hm =>
  (h k t hrun (ht.atWait hm)).imp fun j hfree => ⟨ENat.natCast_lt_top j, hfree⟩

theorem waitsEnd_of_responsiveWithin {n b : ℕ} (h : PanelResponsiveWithin n b s) : WaitsEnd o d n b s :=
  fun k t hk hrun ht hm =>
    (h k t (Nat.cast_lt.1 hk) hrun (ht.atWait hm)).imp fun _ => .imp_left Nat.cast_lt.2

/-- CT.CMD never waits (R129). -/
theorem waitsEnd_cmd (r : Byte) (p : List Byte) : WaitsEnd .cmd (.command r p) N B s :=
  fun _ _ _ _ _ hm => absurd (List.mem_of_getElem? hm) (waitBusy_not_mem_xact r p)

theorem WaitsEnd.after {M : ℕ∞} {k : ℕ} (h : WaitsEnd o d (M + N) B s) (hk : k ≤ M) (hrun : run k s = .next t) :
    WaitsEnd o d N B t := fun i u hi hrun' => by
  refine h (k + i) u ?_ ((run_add hrun i).trans hrun')
  rw [Nat.cast_add]
  exact WithTop.add_lt_add_of_le_of_lt (ENat.natCast_ne_top k) hk hi

/-- An operation in progress completes or faults within `B` steps for each micro-op left and one more time `B` (R133). -/
theorem InProgress.ends {left : ℕ} (h : InProgress o d s) (hleft : s.upc + left = (mprog Config.b2040 o d).length)
    (hB : 1 ≤ B) (hwaits : WaitsEnd o d ((left + 1) * B) B s) :
    ∃ k : ℕ, ∃ t, k ≤ (left + 1) * B ∧ run k s = .next t ∧ (t.op = none ∨ t.fault ≠ none) := by
  induction left generalizing s with
  | zero =>
    obtain rfl := h.opnd
    have hdone := step_complete h.fault h.refused h.op (List.getElem?_eq_none_iff.2 hleft.ge)
    exact ⟨1, _, by simpa using hB, run_succ hdone 0, .inl rfl⟩
  | succ left ih =>
    have hsplit : ((left + 1 : ℕ) + 1) * B = B + (left + 1) * B := by push_cast; ring
    rw [hsplit] at hwaits ⊢
    have hnow : (0 : ℕ∞) < B + (left + 1) * B := (one_pos.trans_le hB).trans_le le_self_add
    obtain ⟨k, t, hk, hrun, hfault | ⟨ht, hupc⟩⟩ := h.advances (by omega) hB (hwaits 0 s hnow rfl h)
    · exact ⟨k, t, hk.trans le_self_add, hrun, .inr hfault⟩
    · obtain ⟨i, u, hi, hrun', hend⟩ := ih ht (by omega) (hwaits.after hk hrun)
      refine ⟨k + i, u, ?_, (run_add hrun i).trans hrun', hend⟩
      rw [Nat.cast_add]
      exact add_le_add hk hi

end Sys2Proof.Machine

namespace Sys2Proof.Proofs

open Sys2Proof.Machine Sys2Proof.Safety

/-- Settles O41: CT.CMD never waits (`waitsEnd_cmd`), so each of its steps is a micro-op's (`InProgress.ends` with `B = 1`). -/
theorem cmdTerminates : Obligations.CmdTerminates := by
  intro s reg payload hf hr ho hopnd hupc
  have h : InProgress .cmd (.command reg payload) s := ⟨hf, hr, ho, hopnd⟩
  have hlen : (mprog Config.b2040 .cmd (.command reg payload)).length = 5 + payload.length := length_xact ..
  obtain ⟨left, hleft⟩ := Nat.exists_eq_add_of_le hupc
  obtain ⟨n, t, hn, hrun, hend⟩ := h.ends (hleft.symm.trans hlen.symm) le_rfl (waitsEnd_cmd reg payload)
  have hbound : n ≤ left + 1 := by
    rw [mul_one] at hn
    exact_mod_cast hn
  exact ⟨n, t, by omega, hrun, hend⟩

/-- Settles O42: `InProgress.ends`, with no bound on the wait of a panel that answers eventually. -/
theorem responsivePanelTerminates : Obligations.ResponsivePanelTerminates := by
  intro s o hf hr ho hupc
  have h : InProgress o s.opnd s := ⟨hf, hr, ho, rfl⟩
  have hleft := Nat.add_sub_cancel' hupc
  refine ⟨fun hpanel => ?_, fun B n hB hn hpanel => ?_⟩
  · obtain ⟨k, t, -, hrun, hend⟩ := h.ends hleft le_top (waitsEnd_of_responsive hpanel)
    exact ⟨k, t, hrun, hend⟩
  · have hwaits := waitsEnd_of_responsiveWithin (o := o) (d := s.opnd) hpanel
    rw [hn] at hwaits
    push_cast at hwaits
    obtain ⟨k, t, hk, hrun, hend⟩ := h.ends hleft (by exact_mod_cast hB) hwaits
    rw [hn]
    exact ⟨k, t, by exact_mod_cast hk, hrun, hend⟩

end Sys2Proof.Proofs
end

section
/-! SUPPORT. The bus commands (43_bus_commands.md R140 to R155): a list of micro-ops up to its first bus fault, the places of a
transaction, and the meaning of a bus command as the steps of the machine. -/

namespace Sys2Proof.Machine

open Sys2Proof Sys2Proof.Safety

/-! ## Lists of micro-ops -/

/-- What each micro-op of a list leaves as it is, the list leaves as it is. -/
theorem runMicroOps_keeps {α : Type} {c : Config} {f : State → α} {ops : List MicroOp} (s : State)
    (h : ∀ m ∈ ops, ∀ t, f (microOp c m t) = f t) : f (runMicroOps c ops s) = f s := by
  induction ops generalizing s with
  | nil => rfl
  | cons m ms ih =>
    obtain ⟨hm, hms⟩ := List.forall_mem_cons.1 h
    rw [runMicroOps]
    split
    · exact hm s
    · exact (ih _ hms).trans (hm s)

/-- What no list of micro-ops changes (R23, R24, R30). -/
theorem runMicroOps_frame (c : Config) (ops : List MicroOp) (s : State) :
    (runMicroOps c ops s).st = s.st ∧ (runMicroOps c ops s).op = s.op ∧ (runMicroOps c ops s).opnd = s.opnd ∧
    (runMicroOps c ops s).fb = s.fb ∧ (runMicroOps c ops s).refused = s.refused ∧
    (runMicroOps c ops s).inbox = s.inbox := by
  have h := runMicroOps_keeps (c := c) (f := fun t => (t.st, t.op, t.opnd, t.fb, t.refused, t.inbox)) (ops := ops) s
    fun m _ t => by
      obtain ⟨hst, hop, hopnd, hfb, hrefused, hinbox, -, -⟩ := microOp_frame c m t
      rw [hst, hop, hopnd, hfb, hrefused, hinbox]
  simpa only [Prod.mk.injEq] using h

/-- A micro-op that does not drive the reset line leaves it at its level (R28). -/
theorem microOp_rstN (c : Config) {m : MicroOp} (hm : ∀ l, m ≠ .rst l) (s : State) : (microOp c m s).rstN = s.rstN := by
  rcases microOp_cases c m s with ⟨-, heq⟩ | ⟨-, -, -, heq⟩ | ⟨_, -, -, heq⟩ | ⟨-, -, -, heq⟩ <;> rw [heq]
  · cases m with
    | rst l => exact absurd rfl (hm l)
    | cs | dc | tx | delay | waitBusy => rfl
  all_goals rfl

/-- A transaction does not drive the reset line, whatever stops it (R140). -/
theorem runMicroOps_xact_rstN (c : Config) (r : Byte) (p : List Byte) (s : State) :
    (runMicroOps c (xact r p) s).rstN = s.rstN :=
  runMicroOps_keeps s fun _ hm t => microOp_rstN c (fun l heq => rst_not_mem_xact l r p (heq ▸ hm)) t

/-- A `TX` that the panel answers `busfault`, the first of its list that does not complete, stops the list with its exception
(R124, R166). -/
theorem runMicroOps_busFault {c : Config} {ops : List MicroOp} {s : State} {j : Nat} {b : Byte} (hf : s.fault = none)
    (hlets : ∀ k m, k < j → ops[k]? = some m → Lets (s.moveAt k) m) (hm : ops[j]? = some (.tx b))
    (hfault : (s.moveAt j).txFault = true) :
    runMicroOps c ops s = (raiseFatal .busFault (afterMicroOps (ops.take j) s)).elapse 1 := by
  obtain ⟨hj, hget⟩ := List.getElem?_eq_some_iff.1 hm
  have hsplit : ops.take j ++ .tx b :: ops.drop (j + 1) = ops := by
    rw [← hget, ← List.drop_eq_getElem_cons hj, List.take_append_drop]
  have hbefore : ∀ k m, (ops.take j)[k]? = some m → Lets (s.moveAt k) m := fun k m hk => by
    rw [List.getElem?_take, Option.ite_none_right_eq_some] at hk
    obtain ⟨hkj, hget'⟩ := hk
    exact hlets k m hkj hget'
  have hmove : (afterMicroOps (ops.take j) s).move.txFault = true := by
    rwa [State.move, moveAt_afterMicroOps, List.length_take_of_le hj.le]
  conv_lhs => rw [← hsplit]
  rw [runMicroOps_append c _ _ s hf hbefore, runMicroOps, microOp_tx_busFault c hmove]
  rfl

/-- A micro-op that is no busy wait completes or takes BusFault (R123, R124, R131). -/
theorem microOp_completes_or_faults (c : Config) {m : MicroOp} (hm : m ≠ .waitBusy) (s : State) :
    microOp c m s = afterMicroOps [m] s ∨ (microOp c m s).fault.isSome = true := by
  rcases microOp_cases c m s with ⟨-, heq⟩ | ⟨hwait, -⟩ | ⟨b, -, -, heq⟩ | ⟨hwait, -⟩
  · exact .inl heq
  · exact absurd hwait hm
  · exact .inr (by rw [heq]; rfl)
  · exact absurd hwait hm

/-- The machine runs a stretch without busy waits of the micro-program in progress one micro-op a step, up to its end or to the
first fault (R25, R166). -/
theorem run_eq_runMicroOps {s : State} {o : OpKind} {ops post : List MicroOp} (hf : s.fault = none)
    (hr : s.refused = false) (ho : s.op = some o) (hp : (mprog Config.b2040 o s.opnd).drop s.upc = ops ++ post)
    (hwait : .waitBusy ∉ ops) :
    ∃ n, (ops ≠ [] → 1 ≤ n) ∧ n ≤ ops.length ∧ run n s = .next (runMicroOps Config.b2040 ops s) := by
  induction ops generalizing s with
  | nil => exact ⟨0, fun h => absurd rfl h, le_rfl, rfl⟩
  | cons m ms ih =>
    obtain ⟨hm, hms⟩ := List.ne_and_not_mem_of_not_mem_cons hwait
    have hget : (mprog Config.b2040 o s.opnd)[s.upc]? = some m := by simpa using congrArg List.head? hp
    have hstep : step s = .next (microOp Config.b2040 m s) := by
      rw [step_operation hf hr ho, operationStep_microOp hget]
    rw [runMicroOps]
    split
    · exact ⟨1, fun _ => le_rfl, Nat.le_add_left .., run_succ hstep 0⟩
    · next hnone =>
      have heq := (microOp_completes_or_faults Config.b2040 (Ne.symm hm) s).resolve_right hnone
      have hrest : (mprog Config.b2040 o s.opnd).drop (s.upc + 1) = ms ++ post := by
        simpa [List.drop_drop] using congrArg (List.drop 1) hp
      rw [heq] at hstep ⊢
      obtain ⟨n, -, hn, hrun⟩ := ih (s := afterMicroOps [m] s) hf hr ho hrest hms
      exact ⟨n + 1, fun _ => Nat.le_add_left .., Nat.succ_le_succ hn, (run_succ hstep n).trans hrun⟩

/-! ## Inside a transaction -/

/-- The micro-ops of a transaction before a payload byte, or before its end (R140). -/
theorem take_xact {r : Byte} {p : List Byte} {k : Nat} (hk : k ≤ p.length) :
    (xact r p).take (4 + k) = [.cs .low, .dc .low, .tx r, .dc .high] ++ (p.take k).map .tx := by
  have hpayload : k ≤ (p.map MicroOp.tx).length := by rwa [List.length_map]
  have hhead : 4 = [MicroOp.cs .low, .dc .low, .tx r, .dc .high].length := rfl
  rw [xact, List.append_assoc, hhead, List.take_length_add_append, List.take_append_of_le_length hpayload, List.map_take]

/-- Where a transaction transmits: its register, and its payload (R140). -/
theorem tx_at_xact {r : Byte} {p : List Byte} {j : Nat} (hj : j = 2 ∨ 4 ≤ j ∧ j < 4 + p.length) :
    ∃ b, (xact r p)[j]? = some (.tx b) := by
  obtain rfl | ⟨hge, hlt⟩ := hj
  · exact ⟨r, rfl⟩
  · obtain ⟨k, rfl⟩ := Nat.exists_eq_add_of_le hge
    exact ⟨_, payload_at_xact (List.getElem?_eq_getElem (by omega))⟩

/-- The lines at a transmit of a transaction: chip-select asserted, data/command low for the register and high for a payload
byte, the reset line as before (R140). -/
theorem lines_at_transmit {r : Byte} {p : List Byte} {j : Nat} (hj : j = 2 ∨ 4 ≤ j ∧ j < 4 + p.length)
    (cs dc rst : Level) :
    csAfter cs ((xact r p).take j) = .low ∧ dcAfter dc ((xact r p).take j) = (if j = 2 then .low else .high) ∧
    rstAfter rst ((xact r p).take j) = rst := by
  obtain rfl | ⟨hge, hlt⟩ := hj
  · exact ⟨rfl, rfl, rfl⟩
  · obtain ⟨k, rfl⟩ := Nat.exists_eq_add_of_le hge
    rw [take_xact (by omega), if_neg (by omega), csAfter_append, dcAfter_append, rstAfter_append, csAfter_tx, dcAfter_tx,
      rstAfter_tx]
    exact ⟨rfl, rfl, rfl⟩

theorem eventsFrom_take (s : State) (ops : List MicroOp) (j : Nat) :
    eventsFrom s (ops.take j) = (eventsFrom s ops).take j := by
  refine List.ext_getElem? fun k => ?_
  simp only [eventsFrom, List.getElem?_mapIdx, List.getElem?_take]
  split <;> rfl

/-- The micro-ops of a transaction before index `j` complete if the panel takes the bytes among them (R124, R140). -/
theorem lets_xact_before {f : Nat → Move} {r : Byte} {p : List Byte} {j : Nat}
    (h : ∀ k, k < j → k = 2 ∨ 4 ≤ k → (f k).txFault = false) {k : Nat} {m : MicroOp} (hk : k < j)
    (hm : (xact r p)[k]? = some m) : Lets (f k) m := by
  by_cases hplace : k = 2 ∨ 4 ≤ k
  · exact lets_xact (f := fun _ => f k) (fun _ _ => h k hk hplace) hm
  · match k with
    | 0 | 1 | 3 => cases hm; trivial
    | 2 | _ + 4 => omega

/-! ## The commands -/

theorem busParts_of_not_isHostOp {i : Instr} (hi : i.isHostOp = false) : ∃ r p, i.busParts = some (r, p) := by
  rw [Instr.isHostOp, Option.isNone_eq_false_iff, Option.isSome_iff_exists] at hi
  obtain ⟨⟨r, p⟩, hparts⟩ := hi
  exact ⟨r, p, hparts⟩

/-- Inside an operation without a fault a bus command is its micro-ops (R140; log 14). -/
theorem exec_bus_inProgress {i : Instr} {r : Reg} {p : List Byte} {s : State} (hparts : i.busParts = some (r, p))
    (hf : s.fault = none) (hop : s.op ≠ none) :
    exec i s = .next (runMicroOps Config.b2040 (xact (Config.b2040.addr r) p) s) := by
  obtain ⟨o, ho⟩ := Option.ne_none_iff_exists'.1 hop
  rw [exec_bus hparts, busCommand, hf, ho]

theorem commandOps_of_busParts {c : Config} {i : Instr} {r : Reg} {p : List Byte} (h : i.busParts = some (r, p)) :
    commandOps c i = xact (c.addr r) p := by
  rw [commandOps, h]

end Sys2Proof.Machine

namespace Sys2Proof.Proofs

open Sys2Proof.Machine Sys2Proof.Safety

/-- Settles O43: a transaction whose bytes the panel takes completes (`runMicroOps_completes`); otherwise the first byte it does
not take stops it (`runMicroOps_busFault`), with the lines as they are at that transmit. -/
theorem busCommandTransaction : Obligations.BusCommandTransaction := by
  intro i r payload s hparts hf hop
  rw [exec_bus_inProgress hparts hf hop]
  refine ⟨fun hok => ?_, fun j hj hbefore hfault => ?_⟩
  · rw [runMicroOps_completes _ _ s hf fun k m hm => lets_xact hok hm, afterMicroOps, length_xact, csAfter_xact,
      dcAfter_xact, rstAfter_xact, eventsFrom_xact]
  · obtain ⟨b, hb⟩ := tx_at_xact (r := Config.b2040.addr r) hj
    obtain ⟨hcs, hdc, hrst⟩ := lines_at_transmit (r := Config.b2040.addr r) hj s.csN s.dc s.rstN
    have hlen : ((xact (Config.b2040.addr r) payload).take j).length = j :=
      List.length_take_of_le (List.getElem?_eq_some_iff.1 hb).1.le
    rw [runMicroOps_busFault hf (fun k m hk hm => lets_xact_before hbefore hk hm) hb hfault, afterMicroOps, hlen,
      hcs, hdc, hrst, eventsFrom_take, eventsFrom_xact]
    simp [raiseFatal, State.respond, State.emit, State.elapse, Nat.add_assoc]

/-- Settles O44: a bus command that answers a next state has run micro-ops of a transaction, which change none of this
(`runMicroOps_frame`, and `runMicroOps_xact_rstN` for the reset line). -/
theorem busCommandFrame : Obligations.BusCommandFrame := by
  intro i s t hi hexec
  obtain ⟨r, p, hparts⟩ := busParts_of_not_isHostOp hi
  obtain ⟨-, -, rfl⟩ := busCommand_next ((exec_bus hparts s).symm.trans hexec)
  obtain ⟨hst, hop, hopnd, hfb, hrefused, hinbox⟩ := runMicroOps_frame Config.b2040 (xact (Config.b2040.addr r) p) s
  exact ⟨hst, hop, hopnd, runMicroOps_xact_rstN .., fun a => by rw [hfb], hfb, hrefused, hinbox⟩

/-- Settles O45: the command's micro-ops have no busy wait, so the machine runs them one a step (`run_eq_runMicroOps`). -/
theorem busCommandIsItsSteps : Obligations.BusCommandIsItsSteps := by
  intro i s o post hi hf hr ho hp
  obtain ⟨r, p, hparts⟩ := busParts_of_not_isHostOp hi
  rw [commandOps_of_busParts hparts] at hp ⊢
  rw [exec_bus_inProgress hparts hf (by simp [ho])]
  obtain ⟨n, hpos, hn, hrun⟩ := run_eq_runMicroOps hf hr ho hp (waitBusy_not_mem_xact _ _)
  exact ⟨n, hpos (by simp [xact]), hn, hrun⟩

end Sys2Proof.Proofs
end

section
/-! SUPPORT. The exceptions (60_exceptions.md R160 to R169): what a frozen block answers, how a step comes to a fault record, what
a pixel operation out of bounds leaves alone, and the busy wait that does not end. -/

namespace Sys2Proof.Machine

open Sys2Proof Sys2Proof.Safety

/-! ## The frozen block -/

/-- With a fault record set the block has no step, whatever else its state is (R168; log 12). -/
theorem step_frozen {s : State} {r : FaultRecord} (hf : s.fault = some r) : step s = .fault (.frozen r) := by
  simp [step, fetch, hf]

theorem runStep_of_step_fault {s : State} {r : Fault} (h : step s = .fault r) : runStep s = s := by
  simp [runStep, h]

theorem ready_false_of_fault {s : State} {r : FaultRecord} (hf : s.fault = some r) : s.ready = false := by
  simp [State.ready, hf]

/-- With a fault record set no bus command runs, in an operation or outside one (R168; log 12). -/
theorem busCommand_frozen (c : Config) (r : Reg) (p : List Byte) {s : State} {f : FaultRecord} (hf : s.fault = some f) :
    busCommand c r p s = .fault (.frozen f) := by
  simp [busCommand, hf]

/-! ## The entry of a fatal exception -/

/-- The two ways a step of an operation comes to a fault record (R162, R163). -/
theorem operationStep_faults {c : Config} {o : OpKind} {s : State} (hf : s.fault = none)
    (hfault : (operationStep c o s).fault ≠ none) :
    (∃ b, (mprog c o s.opnd)[s.upc]? = some (.tx b) ∧ s.move.txFault = true ∧
      operationStep c o s = (raiseFatal .busFault s).elapse 1) ∨
    ((mprog c o s.opnd)[s.upc]? = some .waitBusy ∧ s.move.busy = true ∧ s.move.timeout = true ∧ c.busyTimeout ≠ none ∧
      operationStep c o s = (raiseFatal .protocolTimeout s).elapse 1) := by
  rcases operationStep_cases c o s with
    ⟨m, -, -, heq⟩ | ⟨-, -, -, heq⟩ | hbus | ⟨hm, hbusy, hfires, heq⟩ | ⟨-, heq⟩
  · exact absurd (heq ▸ hf) hfault
  · exact absurd (heq ▸ hf) hfault
  · exact .inl hbus
  · obtain ⟨htimeout, hset⟩ := Bool.and_eq_true_iff.1 hfires
    exact .inr ⟨hm, hbusy, htimeout, Option.isSome_iff_ne_none.1 hset, heq⟩
  · exact absurd (heq ▸ hf) hfault

/-! ## BoundsError -/

theorem pixelWrite_outOfBounds {c : Config} {x y : Int} (h : inBounds c x y = false) (b : Bool) (s : State) :
    pixelWrite c x y b s = (s.emit (.diag 1 x y)).respond .ok := by
  rw [pixelWrite, if_neg (Bool.eq_false_iff.1 h), raise]

/-- The block after a request that emits one event and answers: only the trace and the environment have moved on (R161). -/
theorem State.emit_respond_elapse (e : Event) (r : Response) (s : State) :
    ((s.emit e).respond r).elapse 1 =
      { s with trace := s.trace ++ [e, .rsp r], moves := s.moves.drop 1, tick := s.tick + 1 } := by
  simp [State.elapse, State.respond, State.emit]

theorem exec_fbWrite_outOfBounds {s : State} (hs : s.ready = true) {x y : Int} (h : inBounds Config.b2040 x y = false)
    (b : Bool) :
    exec (.fbWrite x y b) s = .next { s with
      trace := s.trace ++ [.diag 1 x y, .rsp .ok], moves := s.moves.drop 1, tick := s.tick + 1 } := by
  rw [exec, execFbWrite, immediate_of_ready hs, pixelWrite_outOfBounds h, State.emit_respond_elapse]

/-! ## The hang -/

/-- While busy stays asserted, time at a busy wait is the environment's alone (R125, R169). -/
theorem InProgress.run_held {o : OpKind} {d : Operand} {n : Nat} {s : State} (h : InProgress o d s)
    (hm : (mprog Config.b2040 o d)[s.upc]? = some .waitBusy) (hbusy : ∀ k, k < n → (s.moveAt k).busy = true) :
    run n s = .next (s.elapse n) := by
  induction n generalizing s with
  | zero => rfl
  | succ n ih =>
    have hhold : step s = .next (s.elapse 1) := by
      rw [h.step_microOp hm, microOp_waitBusy_holds (hbusy 0 n.succ_pos) (.inl rfl)]
    have hlater : ∀ k, k < n → ((s.elapse 1).moveAt k).busy = true := fun k hk => by
      rw [State.moveAt_elapse]
      exact hbusy (1 + k) (by omega)
    rw [run_succ hhold, ih (h.elapse 1) hm hlater, State.elapse_elapse, Nat.add_comm]

end Sys2Proof.Machine

namespace Sys2Proof.Proofs

open Sys2Proof.Machine Sys2Proof.Safety

/-- Settles O40: each step at the wait is a hold (`InProgress.run_held`). -/
theorem unresponsivePanelHangs : Obligations.UnresponsivePanelHangs :=
  fun s o _ hf hr ho hm hbusy => InProgress.run_held (o := o) (d := s.opnd) ⟨hf, hr, ho, rfl⟩ hm hbusy

/-- Settles O52: of what a step can be, only an operation in progress comes to a fault record, in one of two ways
(`operationStep_faults`); this machine sets no `BUSY_TIMEOUT`, and a request that is taken keeps the record (O55). -/
theorem fatalExceptionEntry : Obligations.FatalExceptionEntry := by
  refine ⟨fun s t hstep hfault => ?_, fun c o s hf hfault => ?_⟩
  · obtain ⟨hf, -, hcases⟩ := step_cases hstep
    rcases hcases with ⟨o, ho, rfl⟩ | ⟨-, rfl⟩ | ⟨-, r, rest, i, -, hdecode, hexec⟩
    · rcases operationStep_faults hf hfault with ⟨b, hm, htx, heq⟩ | ⟨-, -, -, hset, -⟩
      · exact ⟨o, b, ho, hm, htx, heq⟩
      · exact absurd rfl hset
    · exact absurd hf hfault
    · obtain ⟨-, -, -, hkept, -⟩ := hostOperationFrame i _ t (decodeRequest_isHostOp hdecode) hexec
      exact absurd (hkept.trans hf) hfault
  · rcases operationStep_faults hf hfault with ⟨b, hm, htx, heq⟩ | ⟨hm, hbusy, htimeout, hset, heq⟩
    · exact ⟨.busFault, heq, ⟨b, hm⟩, htx⟩
    · exact ⟨.protocolTimeout, heq, hm, hbusy, htimeout, hset⟩

/-- Settles O14: the fault record comes first at the fetch and in a bus command, and the block is not ready. -/
theorem frozenAfterFault : Obligations.FrozenAfterFault := by
  intro s r hf
  have hstep := step_frozen hf
  refine ⟨hstep, runStep_of_step_fault hstep, fun i hi => exec_notReady hi (ready_false_of_fault hf), fun i hi => ?_⟩
  obtain ⟨reg, p, hparts⟩ := busParts_of_not_isHostOp hi
  rw [exec_bus hparts, busCommand_frozen _ _ _ hf]

/-- Settles O19: the diagnostic stands in for the write or the read; DA.PIXEL is FB.WRITE of the colour's bit (R110). -/
theorem outOfBoundsAbsorbed : Obligations.OutOfBoundsAbsorbed := by
  intro s x y b col hs hout
  have hno : inBounds Config.b2040 x y = false := Bool.eq_false_iff.2 (mt inBounds_iff.1 hout)
  refine ⟨exec_fbWrite_outOfBounds hs hno b, ?_, ?_⟩
  · rw [exec_daPixel_eq_fbWrite, exec_fbWrite_outOfBounds hs hno]
  · rw [exec_fbQuery hs, pixelQuery_outOfBounds hno, State.emit_respond_elapse]

end Sys2Proof.Proofs
end

section
/-! SUPPORT. The end of a run (70_reset_and_hazards.md R206): what shuts a state out of the final ones. -/

namespace Sys2Proof.Machine

open Sys2Proof Sys2Proof.Safety

/-- Only an operation in progress has a micro-program. -/
theorem op_ne_none_of_program_getElem? {c : Config} {s : State} {k : Nat} {m : MicroOp} (h : (s.program c)[k]? = some m) :
    s.op ≠ none := by
  intro hop
  simp [State.program, hop] at h

/-- A block at a busy wait has an operation in progress (R125). -/
theorem ready_false_of_atWait {s : State} (h : AtWait s) : s.ready = false := by
  obtain ⟨-, hprogram⟩ := h
  obtain ⟨o, ho⟩ := Option.ne_none_iff_exists'.1 (op_ne_none_of_program_getElem? hprogram)
  exact ready_false_of_op ho

theorem not_final_of_not_ready {s : State} (hs : s.ready = false) : ¬ Final s := by
  rintro ⟨-, hready, -⟩
  exact Bool.eq_false_iff.1 hs hready

theorem not_final_of_refused {s : State} (hr : s.refused = true) : ¬ Final s := by
  rintro ⟨-, -, hrefused⟩
  exact Bool.eq_false_iff.1 hrefused hr

end Sys2Proof.Machine

namespace Sys2Proof.Proofs

open Sys2Proof.Machine Sys2Proof.Safety

/-- Settles O59: a final block waits for a request (O13); a held block and a faulted one are not ready, and the mark itself
shuts out a refused run. -/
theorem finalStates : Obligations.FinalStates := by
  refine fun s => ⟨fun ⟨hinbox, hready, hrefused⟩ => ?_, ?_⟩
  · obtain ⟨hwaits, -⟩ := waitingBlockKeepsItsState s hready hrefused
    exact hwaits hinbox
  · rintro (⟨hwait, -⟩ | hfault | hmarked)
    · exact not_final_of_not_ready (ready_false_of_atWait hwait)
    · obtain ⟨r, hr⟩ := Option.ne_none_iff_exists'.1 hfault
      exact not_final_of_not_ready (ready_false_of_fault hr)
    · exact not_final_of_refused hmarked

end Sys2Proof.Proofs
end
